-- ==== Sys2Proof/Word.lean ====
section
/-! DEFINITION. The word types of the SMIPS core (spec/00_scope.md R6 and section 4). -/

namespace Sys2Proof

/-- A 32-bit word: the contents of a register (an `i32`, read as signed by `toInt`), or an instruction word (a `u32`). R6
(`XLEN`, `ILEN`), R10, R40. -/
abbrev Word := BitVec 32

/-- A `u8`: the character of a `PrintChar` event. R18. -/
abbrev Byte := BitVec 8

/-- The program counter: a signed 32-bit index of instruction words, read by `toInt`. R6 (`PCLEN`), R14; log 4. -/
abbrev PcIndex := BitVec 32

/-- The number of a general register, 0 to 31. R10, R12, R42. -/
abbrev RegIdx := Fin 32

end Sys2Proof
end

