-- ==== Sys2Proof/Config.lean ====
section
/-! DEFINITION. What is fixed for the machine: the parameters of spec/00_scope.md R6 and spec/92_eei_decisions.md D19, and
the points the spec leaves OPEN in the host's text (D11, D12), which are constants with no body. -/

namespace Sys2Proof.Config

/-- `IMM_NEG_THRESHOLD`: the smallest raw immediate read as negative. R6, R44; the spec's decision D1 (log 8, DEDUCED). The
bug-compatible machine of D1 is this model with 32767 here. -/
def immNegThreshold : Nat := 32768

/-- `PROGRAM_MAX`: the most words a program may have. R6, R30; C2, D2 (log 9, DEDUCED). -/
def programMax : Nat := 1000

/-- `SYSCALL_CODE_REG`. R6, R89. -/
def syscallCodeReg : RegIdx := 2

/-- `SYSCALL_ARG_REG`. R6, R89. -/
def syscallArgReg : RegIdx := 4

/-- `UNKNOWN_SYSCALL_TEXT`: the host's diagnostic for an unknown service code, whose wording the spec leaves OPEN. D11, N6;
log 12. -/
opaque unknownSyscallText : Word → String

/-- The host's spelling of a word as eight hexadecimal digits: their letter case is not in the spec. R102, N7; log 12. -/
opaque hexWordText : Word → String

/-- The one character the host pads the index of a register line with: R130 gives the width, 2, and not the character. Log 12. -/
opaque registerLinePad : Char

/-- The operand list of the original's disassembly line (the separator, the branch operand `RENDER_BRANCH_OPERAND`, the form
of the constants), from the mnemonic's operand values: OPEN. R57, R58, D12, N8; log 12. -/
opaque renderOperandList : String → List Int → String

end Sys2Proof.Config
end

