-- ==== Sys2Proof/Machine/State.lean ====
section
/-! DEFINITION. The state of the SMIPS core as plain data (spec/10_state.md R10 to R23, spec/20_memory.md R30), its state after
reset (R26, R120), and the reasons a step can stop. -/

namespace Sys2Proof.Machine

/-- `run_state`: the termination flag. R16. -/
inductive RunState where
  | running
  | halted
  deriving DecidableEq, Repr

/-- What the core hands the host at a `syscall`. R18; the typed form is the spec's decision D11 (log 11). -/
inductive Event where
  /-- Service 1, with the signed value of `x[4]`. R90. -/
  | printInt (value : Word)
  /-- Service 11, with the low 8 bits of `x[4]`. R92. -/
  | printChar (char : Byte)
  /-- A code outside 1, 10, 11. R93. -/
  | unknownSyscall (code : Word)
  deriving DecidableEq, Repr

/-- The content of the fault record. `DecodeFailure` is the only fault the core raises (R17, R100, R101). -/
inductive FaultRecord where
  /-- The failing instruction's 1-based position and its raw word. R17, R102. -/
  | decodeFailure (position : Nat) (word : Word)
  deriving DecidableEq, Repr

/-- The program store: the word at index `k` is the `k`-th element, and `PROGRAM_LEN` is the length. R30, R32; whole words and
no bytes, R34 (log 1). -/
abbrev Memory := List Word

/-- The canonical form of the store: any list of words is one store and no other, and it holds at most `PROGRAM_MAX` words. R30. -/
def Memory.wf (m : Memory) : Bool := decide (m.length ≤ Config.programMax)

/-- The complete state `(x[0..31], pc, run_state, fault, out)` of R23, and the program store the core fetches from (R30). -/
structure State where
  /-- The 32 general registers, slot `i` for `x[i]`. R10. Read and written only through `readReg` and `writeReg`. -/
  regs : Vector Word 32
  /-- The index of the instruction the next step executes. R14. -/
  pc : PcIndex
  /-- R16. -/
  runState : RunState
  /-- The sticky fault record. R17. -/
  fault : Option FaultRecord
  /-- The output event trace, oldest first. R18. -/
  out : List Event
  /-- The loaded program `IMem[0 .. PROGRAM_LEN-1]`; no instruction writes it. R30; log 1. -/
  imem : Memory
  deriving DecidableEq, Repr

/-- Why `step` takes no step: the three kinds of terminal state of R126 (log 6). None of them is raised by a meaning. -/
inductive Fault where
  /-- R126 (a): `run_state = Halted`; a normal end. Raised by the step's fetch only. Safe: the spec says no step is possible. -/
  | halted
  /-- R126 (b): a `DecodeFailure` is recorded; the run is aborted. Raised by the step's fetch only. Safe. -/
  | decodeFailed
  /-- R126 (c): the pc is outside the program; a normal end (`FellOff`). Raised by the step's fetch only. Safe. -/
  | fellOff
  deriving DecidableEq, Repr

/-- Why an instruction has no meaning. -/
inductive Refusal where
  /-- Raised by `exec` for an instruction the model has not reached; no arm uses it. Safe. -/
  | notModelled (mnemonic : String)
  deriving DecidableEq, Repr

/-- What a step or a meaning answers. -/
abbrev Result := Host.Outcome State Fault Refusal

/-- The state after reset: R26, R120. Registers 1 to 31 are 0 by the spec's decision D3 (log 3, DEDUCED). No program is loaded
(log 2), which is the empty program of R121. -/
def State.reset : State where
  regs := Vector.replicate 32 0#32
  pc := 0#32
  runState := .running
  fault := none
  out := []
  imem := []

end Sys2Proof.Machine
end

