-- ==== Sys2Proof/Machine/Flags.lean ====
section
/-! DEFINITION. The comparisons of the SMIPS core. There are no status flags (spec/10_state.md R19): a comparison's result is a
0 or 1 in a general register (R65, R77) or the condition of a branch (R71, R72). -/

namespace Sys2Proof.Machine

/-- The register value of a comparison: `c ? 1 : 0`. R65, R77. -/
def boolWord (c : Bool) : Word := if c then 1#32 else 0#32

/-- `(a < b) ? 1 : 0` on the signed values. R65. -/
def setLess (a b : Word) : Word := boolWord (decide (a.toInt < b.toInt))

/-- `(a < imm) ? 1 : 0`, a signed register value against the signed immediate. R77. -/
def setLessImm (a : Word) (imm : Int) : Word := boolWord (decide (a.toInt < imm))

/-- The condition of `beq`: all 32 bits equal. R71. -/
def condEq (a b : Word) : Bool := decide (a = b)

/-- The condition of `bne`. R72. -/
def condNe (a b : Word) : Bool := !condEq a b

end Sys2Proof.Machine
end

