-- ==== Sys2Proof/Syntax.lean ====
section
/-! DEFINITION. The instruction set of the SMIPS core: the fourteen variants of spec/30_encoding.md R45, one constructor per
row of spec/opcode_table.json, operands in the order of R57. -/

namespace Sys2Proof

/-- A decoded instruction (R45). `d`, `s`, `t` are the register fields of R42; `imm` is the signed immediate and `raw` the raw
16-bit immediate of R44. -/
inductive Instr where
  /-- `syscall`: R88. -/
  | syscall
  /-- `add $d,$s,$t`: R61. -/
  | add (d s t : RegIdx)
  /-- `sub $d,$s,$t`: R62. -/
  | sub (d s t : RegIdx)
  /-- `and $d,$s,$t`: R63. -/
  | and (d s t : RegIdx)
  /-- `or $d,$s,$t`: R64. -/
  | or (d s t : RegIdx)
  /-- `slt $d,$s,$t`: R65. -/
  | slt (d s t : RegIdx)
  /-- `mul $d,$s,$t`: R66. -/
  | mul (d s t : RegIdx)
  /-- `beq $s,$t,imm`: R71. -/
  | beq (s t : RegIdx) (imm : Int)
  /-- `bne $s,$t,imm`: R72. -/
  | bne (s t : RegIdx) (imm : Int)
  /-- `addi $t,$s,imm`: R76. -/
  | addi (t s : RegIdx) (imm : Int)
  /-- `slti $t,$s,imm`: R77. -/
  | slti (t s : RegIdx) (imm : Int)
  /-- `andi $t,$s,raw`: R78. -/
  | andi (t s : RegIdx) (raw : BitVec 16)
  /-- `ori $t,$s,raw`: R79. -/
  | ori (t s : RegIdx) (raw : BitVec 16)
  /-- `lui $t,raw`: R85. -/
  | lui (t : RegIdx) (raw : BitVec 16)
  deriving DecidableEq, Repr

end Sys2Proof
end

