-- ==== Sys2Proof/WellFormed.lean ====
section
/-! DEFINITION. When an instruction's operands are in the range the encoding admits (spec/30_encoding.md R44, R55). Register
numbers and raw immediates are in range by their types; the signed immediate is checked. -/

namespace Sys2Proof

/-- `-32768 <= imm <= 32767`: the range of `imm` in R44 and R55. -/
def immInRange (imm : Int) : Bool := decide (-32768 ≤ imm) && decide (imm ≤ 32767)

/-- The operands have fields the 32-bit encoding can hold (R55: "with `0 <= s, t, d <= 31`, `-32768 <= imm <= 32767`,
`0 <= raw <= 65535`"). -/
def Instr.wf : Instr → Bool
  | .syscall => true
  | .add _ _ _ => true
  | .sub _ _ _ => true
  | .and _ _ _ => true
  | .or _ _ _ => true
  | .slt _ _ _ => true
  | .mul _ _ _ => true
  | .beq _ _ imm => immInRange imm
  | .bne _ _ imm => immInRange imm
  | .addi _ _ imm => immInRange imm
  | .slti _ _ imm => immInRange imm
  | .andi _ _ _ => true
  | .ori _ _ _ => true
  | .lui _ _ => true

end Sys2Proof
end

