-- ==== Sys2Proof/Decode.lean ====
section
/-! DEFINITION. Fields, decoder and canonical encoder of the SMIPS core (spec/30_encoding.md R40 to R55). -/

namespace Sys2Proof

/-! ### Fields (R41 to R44) -/

/-- `opcode = bits[31:26]`. R41. -/
def opcodeField (w : Word) : BitVec 6 := w.extractLsb' 26 6

/-- `s = bits[25:21]`. R42. -/
def sField (w : Word) : RegIdx := (w.extractLsb' 21 5).toFin

/-- `t = bits[20:16]`. R42. -/
def tField (w : Word) : RegIdx := (w.extractLsb' 16 5).toFin

/-- `d = bits[15:11]`. R42. -/
def dField (w : Word) : RegIdx := (w.extractLsb' 11 5).toFin

/-- `funct = bits[5:0]`. R43. -/
def functField (w : Word) : BitVec 6 := w.extractLsb' 0 6

/-- `raw_imm = bits[15:0]`. R44. -/
def rawImmField (w : Word) : BitVec 16 := w.extractLsb' 0 16

/-- `sext_16` with an explicit threshold: a raw value at or above it is read as `raw - 65536`. spec/00_scope.md section 4,
R44, D1. -/
def sext16At (threshold : Nat) (raw : BitVec 16) : Int :=
  if threshold ≤ raw.toNat then (raw.toNat : Int) - 65536 else raw.toNat

/-- `sext_16`, the signed reading of a raw immediate, at the core's threshold. R44; log 8. -/
def sext16 (raw : BitVec 16) : Int := sext16At Config.immNegThreshold raw

/-- `imm = sext_16(raw_imm)`. R44. -/
def immField (w : Word) : Int := sext16 (rawImmField w)

/-! ### Decoder (R45 to R49) -/

/-- Why a word is `Fail` (R49): which of the decoder's two tables has no entry for it. The core makes nothing of the
difference: every failure is the one `DecodeFailure` of R101. -/
inductive DecodeReject where
  /-- Opcode 0 and a `funct` outside the table of R47 (and not the `syscall` word). -/
  | unknownFunct (funct : BitVec 6)
  /-- An opcode other than 0 outside the table of R48. -/
  | unknownOpcode (opcode : BitVec 6)
  deriving DecidableEq, Repr

/-- The one word that is `syscall`. R46. -/
def syscallWord : Word := 0x0000000C#32

/-- Decoder step 2: the `funct` table of opcode 0. R47. -/
def decodeFunct (w : Word) : Except DecodeReject Instr :=
  let d := dField w
  let s := sField w
  let t := tField w
  if functField w = 0x20#6 then .ok (.add d s t)
  else if functField w = 0x22#6 then .ok (.sub d s t)
  else if functField w = 0x24#6 then .ok (.and d s t)
  else if functField w = 0x25#6 then .ok (.or d s t)
  else if functField w = 0x2A#6 then .ok (.slt d s t)
  else .error (.unknownFunct (functField w))

/-- Decoder step 3: the opcode table. R48. -/
def decodeOpcode (w : Word) : Except DecodeReject Instr :=
  let s := sField w
  let t := tField w
  if opcodeField w = 0x1C#6 then .ok (.mul (dField w) s t)
  else if opcodeField w = 0x04#6 then .ok (.beq s t (immField w))
  else if opcodeField w = 0x05#6 then .ok (.bne s t (immField w))
  else if opcodeField w = 0x08#6 then .ok (.addi t s (immField w))
  else if opcodeField w = 0x0A#6 then .ok (.slti t s (immField w))
  else if opcodeField w = 0x0C#6 then .ok (.andi t s (rawImmField w))
  else if opcodeField w = 0x0D#6 then .ok (.ori t s (rawImmField w))
  else if opcodeField w = 0x0F#6 then .ok (.lui t (rawImmField w))
  else .error (.unknownOpcode (opcodeField w))

/-- `Decode(w)`: the three tests in the priority order of R45. Total on all words (R52). -/
def decode (w : Word) : Except DecodeReject Instr :=
  if w = syscallWord then .ok .syscall
  else if opcodeField w = 0#6 then decodeFunct w
  else decodeOpcode w

/-- The word is one of the fourteen instructions: `Decode(w) != Fail`. R49, R112. -/
def decodable (w : Word) : Bool :=
  match decode w with
  | .ok _ => true
  | .error _ => false

/-! ### Encoder (R50, R55) -/

/-- A register number as a 5-bit field. R42. -/
def regBits (r : RegIdx) : BitVec 5 := BitVec.ofFin r

/-- `imm mod 65536`. R55. -/
def immBits (imm : Int) : BitVec 16 := BitVec.ofInt 16 imm

/-- Formats B, I and U: opcode, `s`, `t` and a 16-bit immediate (bits 31:26, 25:21, 20:16, 15:0). R50. -/
def packImm (opcode : BitVec 6) (s t : BitVec 5) (raw : BitVec 16) : Word := opcode ++ s ++ t ++ raw

/-- Formats R and M: opcode, `s`, `t`, `d`, bits 10:6 and bits 5:0; the ignored bits are written 0. R50, R55; D10, log 10. -/
def packReg (opcode : BitVec 6) (d s t : RegIdx) (funct : BitVec 6) : Word :=
  packImm opcode (regBits s) (regBits t) (regBits d ++ 0#5 ++ funct)

/-- The canonical encoder `Encode`, every ignored bit zero. R55; log 10. -/
def encode : Instr → Word
  | .syscall => syscallWord
  | .add d s t => packReg 0x00#6 d s t 0x20#6
  | .sub d s t => packReg 0x00#6 d s t 0x22#6
  | .and d s t => packReg 0x00#6 d s t 0x24#6
  | .or d s t => packReg 0x00#6 d s t 0x25#6
  | .slt d s t => packReg 0x00#6 d s t 0x2A#6
  | .mul d s t => packReg 0x1C#6 d s t 0x00#6
  | .beq s t imm => packImm 0x04#6 (regBits s) (regBits t) (immBits imm)
  | .bne s t imm => packImm 0x05#6 (regBits s) (regBits t) (immBits imm)
  | .addi t s imm => packImm 0x08#6 (regBits s) (regBits t) (immBits imm)
  | .slti t s imm => packImm 0x0A#6 (regBits s) (regBits t) (immBits imm)
  | .andi t s raw => packImm 0x0C#6 (regBits s) (regBits t) raw
  | .ori t s raw => packImm 0x0D#6 (regBits s) (regBits t) raw
  | .lui t raw => packImm 0x0F#6 0#5 (regBits t) raw

/-- The bits neither the decoder nor the operation reads (R51): 10:6 of the format R instructions, 10:0 of `mul`, 25:21 of
`lui`, none of the others. -/
def Instr.ignoredMask : Instr → Word
  | .syscall => 0x00000000#32
  | .add _ _ _ => 0x000007C0#32
  | .sub _ _ _ => 0x000007C0#32
  | .and _ _ _ => 0x000007C0#32
  | .or _ _ _ => 0x000007C0#32
  | .slt _ _ _ => 0x000007C0#32
  | .mul _ _ _ => 0x000007FF#32
  | .beq _ _ _ => 0x00000000#32
  | .bne _ _ _ => 0x00000000#32
  | .addi _ _ _ => 0x00000000#32
  | .slti _ _ _ => 0x00000000#32
  | .andi _ _ _ => 0x00000000#32
  | .ori _ _ _ => 0x00000000#32
  | .lui _ _ => 0x03E00000#32

/-! ### The host's probe -/

/-- What the decoder reads from an instruction whose bits are `w`, `nbits` of them given and the rest zero. An instruction is
one 32-bit word with no bytes to order (R34, R40; log 1). -/
def decodeTableWord (nbits w : Nat) : Option Instr :=
  match decode (BitVec.ofNat 32 (w % 2 ^ nbits)) with
  | .ok i => some i
  | .error _ => none

end Sys2Proof
end

