-- ==== Sys2Proof/Machine/Operands.lean ====
section
/-! DEFINITION. The operand forms of the SMIPS core and the arithmetic on them: number readings (spec/00_scope.md section 4) and
the effect table (spec/40_register_register.md R60 to R67, 42 R75 to R79, 43 R85). -/

namespace Sys2Proof.Machine

/-- `to_i32`: an exact integer reduced modulo 2^32, read again as signed by `toInt`. spec/00_scope.md section 4, R67. -/
def toI32 (v : Int) : Word := BitVec.ofInt 32 v

/-- The raw immediate as the 32-bit pattern whose upper 16 bits are zero: the operand of `andi` and `ori`. R44, R78. -/
def zext16 (raw : BitVec 16) : Word := raw.setWidth 32

/-- `to_i32(raw_imm << 16)`: the operand of `lui`. R85. -/
def upperImm (raw : BitVec 16) : Word := toI32 ((raw.toNat : Int) * 2 ^ 16)

/-- `to_i32(a + b)`. R61, R67. -/
def aluAdd (a b : Word) : Word := toI32 (a.toInt + b.toInt)

/-- `to_i32(a - b)`, `a` the minuend. R62, R67. -/
def aluSub (a b : Word) : Word := toI32 (a.toInt - b.toInt)

/-- `to_i32(a * b)`: the low 32 bits of the exact product. R66, R67. -/
def aluMul (a b : Word) : Word := toI32 (a.toInt * b.toInt)

/-- Bitwise AND of the 32-bit patterns. R63, R67. -/
def aluAnd (a b : Word) : Word := a &&& b

/-- Bitwise OR of the 32-bit patterns. R64, R67. -/
def aluOr (a b : Word) : Word := a ||| b

/-- `to_i32(a + imm)`. R76, R67. -/
def aluAddImm (a : Word) (imm : Int) : Word := toI32 (a.toInt + imm)

end Sys2Proof.Machine
end

