-- ==== Sys2Proof/Machine/Ops.lean ====
section
/-! DEFINITION. The named operations over registers, program store, pc, termination flag, event trace and fault record
(spec/10_state.md R10 to R24, 20 R31, 41 R70, 44 R89, 60 R101). The meanings and the step only call these. -/

namespace Sys2Proof.Machine

/-! ### General registers (R10, R11, R13) -/

/-- `x[i]`: register 0 reads 0 whatever its slot holds. R11. -/
def State.readReg (s : State) (i : RegIdx) : Word := if i = 0 then 0#32 else s.regs[i]

/-- `x[i] <- v`. A write to `x[0]` is tolerated until `clearZero` ends the step. R11, R24; D17, log 5. -/
def State.writeReg (s : State) (i : RegIdx) (v : Word) : State := { s with regs := s.regs.set i v }

/-- `x[0] <- 0`: the end of every completed step. R11, R24 step 6. -/
def State.clearZero (s : State) : State := { s with regs := s.regs.set 0 0#32 }

/-! ### Program counter (R14, R15, R70) -/

/-- `pc <- next`: the last action of a step. R14, R24 step 7. -/
def State.setPc (s : State) (next : PcIndex) : State := { s with pc := next }

/-- `pc + 1`: the index after a step that does not branch. R15. -/
def State.nextPc (s : State) : PcIndex := s.pc + 1#32

/-- `taken ? pc + imm : pc + 1`, in words from the branch's own index. R70, R24 step 4. -/
def State.branchPc (s : State) (taken : Bool) (imm : Int) : PcIndex :=
  if taken then s.pc + BitVec.ofInt 32 imm else s.nextPc

/-! ### The end of a step (R24) -/

/-- Steps 6 and 7 of R24: `x[0] <- 0`, then `pc <- next`. -/
def State.finish (s : State) (next : PcIndex) : State := s.clearZero.setPc next

/-- Step 5 of R24 and the end of the step: `x[dest] <- v`, then `x[0] <- 0` and `pc <- pc + 1`. -/
def State.retire (s : State) (dest : RegIdx) (v : Word) : State := (s.writeReg dest v).finish s.nextPc

/-- Step 4 of R24 and the end of the step: a branch. -/
def State.branch (s : State) (taken : Bool) (imm : Int) : State := s.finish (s.branchPc taken imm)

/-! ### Termination flag and event trace (R16, R18) -/

/-- `emit E`: append one event at the end of the trace. R18. -/
def State.emit (s : State) (e : Event) : State := { s with out := s.out ++ [e] }

/-- `halt`: set the run state to `Halted`. R16. -/
def State.halt (s : State) : State := { s with runState := .halted }

/-- What the service handler answers the engine. R89. -/
inductive ServiceResult where
  | continue
  | halt
  deriving DecidableEq, Repr

/-- The service code `x[2]`. R89. -/
def State.serviceCode (s : State) : Word := s.readReg Config.syscallCodeReg

/-- The service argument `x[4]`. R89. -/
def State.serviceArg (s : State) : Word := s.readReg Config.syscallArgReg

/-- `SyscallService()`: the closed set of services, on the signed value of the code. R89 to R93. -/
def State.syscallService (s : State) : State × ServiceResult :=
  if s.serviceCode.toInt = 1 then (s.emit (.printInt s.serviceArg), .continue)
  else if s.serviceCode.toInt = 10 then (s, .halt)
  else if s.serviceCode.toInt = 11 then (s.emit (.printChar (s.serviceArg.setWidth 8)), .continue)
  else (s.emit (.unknownSyscall s.serviceCode), .halt)

/-! ### Taking the one fault (R101, R108) and the absence of a return (R110) -/

/-- The 1-based position of the instruction at the pc: `pc + 1`. R102. -/
def State.position (s : State) : Nat := (s.pc.toInt + 1).toNat

/-- `raise DecodeFailure(pc + 1, w)`: set the record; every other piece of state keeps its value. R101, R102, R108; D6, log 7.
There is no return from it: only reset clears the record (R110). -/
def State.raiseDecodeFailure (s : State) (w : Word) : State :=
  { s with fault := some (.decodeFailure s.position w) }

/-! ### The program store and the fetch (R24, R30, R31) -/

/-- The word at index `i`, or none outside `[0, PROGRAM_LEN)`, where nothing is. R31, R37. -/
def Memory.word? (m : Memory) (i : Int) : Option Word := if 0 ≤ i then m[i.toNat]? else none

/-- Put `w` at index `k`, extending the store with undecodable zero words as far as needed. It stands for the host's load and
is used by `withFetchWord` alone (log 2): no instruction writes the store. -/
def Memory.place : Memory → Nat → Word → Memory
  | [], 0, w => [w]
  | [], k + 1, w => 0#32 :: Memory.place [] k w
  | _ :: rest, 0, w => w :: rest
  | v :: rest, k + 1, w => v :: Memory.place rest k w

/-- Whether a step is possible: `run_state = Running`, `fault = None`, `0 <= pc < PROGRAM_LEN`. R24. -/
def State.canStep (s : State) : Bool :=
  decide (s.runState = .running) && s.fault.isNone && decide (0 ≤ s.pc.toInt) && decide (s.pc.toInt < s.imem.length)

/-- Check that a step is possible, then fetch `IMem[pc]`; in a terminal state, the kind of R126 it is. The check comes before
the fetch (R107). R24 step 1, R31, R126; log 6, and log 16 for a state of two kinds. -/
def State.fetch (s : State) : Except Fault Word :=
  match s.runState, s.fault with
  | .halted, _ => .error .halted
  | .running, some _ => .error .decodeFailed
  | .running, none =>
    match Memory.word? s.imem s.pc.toInt with
    | some w => .ok w
    | none => .error .fellOff

/-! ### What a fetched word does to the state when it is not an instruction (R24 step 2) -/

/-- The step on a word the decoder does not recognise: it takes `DecodeFailure`, a next state. R24 step 2, R101; log 7. -/
def execUndecodable (w : Word) (s : State) : Result := .next (s.raiseDecodeFailure w)

end Sys2Proof.Machine
end

