-- ==== Sys2Proof/Machine/Branch.lean ====
section
/-! DEFINITION. The branch instructions `beq` and `bne` (spec/41_branch.md R70 to R73). No delay slot (R125). -/

namespace Sys2Proof.Machine

/-- `beq $s,$t,imm`: `if x[s] == x[t] then pc <- pc + imm else pc <- pc + 1`. R70, R71. -/
def execBeq (s t : RegIdx) (imm : Int) (st : State) : Result :=
  .next (st.branch (condEq (st.readReg s) (st.readReg t)) imm)

/-- `bne $s,$t,imm`: `if x[s] != x[t] then pc <- pc + imm else pc <- pc + 1`. R70, R72. -/
def execBne (s t : RegIdx) (imm : Int) (st : State) : Result :=
  .next (st.branch (condNe (st.readReg s) (st.readReg t)) imm)

end Sys2Proof.Machine
end

