-- ==== Sys2Proof/Machine/Immediate.lean ====
section
/-! DEFINITION. The immediate instructions `addi`, `slti`, `andi`, `ori` (spec/42_immediate.md R75 to R79). The destination is
the `t` field; the source is read before the write (R75). -/

namespace Sys2Proof.Machine

/-- `addi $t,$s,imm`: `x[t] <- to_i32(x[s] + imm)`; `pc <- pc + 1`. R76. -/
def execAddi (t s : RegIdx) (imm : Int) (st : State) : Result :=
  .next (st.retire t (aluAddImm (st.readReg s) imm))

/-- `slti $t,$s,imm`: `x[t] <- (x[s] < imm) ? 1 : 0`, signed; `pc <- pc + 1`. R77. -/
def execSlti (t s : RegIdx) (imm : Int) (st : State) : Result :=
  .next (st.retire t (setLessImm (st.readReg s) imm))

/-- `andi $t,$s,raw`: bitwise AND with the zero-extended constant; `pc <- pc + 1`. R78. -/
def execAndi (t s : RegIdx) (raw : BitVec 16) (st : State) : Result :=
  .next (st.retire t (aluAnd (st.readReg s) (zext16 raw)))

/-- `ori $t,$s,raw`: bitwise OR with the zero-extended constant; `pc <- pc + 1`. R79. -/
def execOri (t s : RegIdx) (raw : BitVec 16) (st : State) : Result :=
  .next (st.retire t (aluOr (st.readReg s) (zext16 raw)))

end Sys2Proof.Machine
end

