-- ==== Sys2Proof/Machine/LoadUpper.lean ====
section
/-! DEFINITION. `lui` (spec/43_load_upper.md R85). It reads no register and no memory. -/

namespace Sys2Proof.Machine

/-- `lui $t,raw`: `x[t] <- to_i32(raw_imm << 16)`; `pc <- pc + 1`. R85. -/
def execLui (t : RegIdx) (raw : BitVec 16) (st : State) : Result := .next (st.retire t (upperImm raw))

end Sys2Proof.Machine
end

