-- ==== Sys2Proof/Machine/RegisterRegister.lean ====
section
/-! DEFINITION. The register-register instructions `add`, `sub`, `and`, `or`, `slt`, `mul`
(spec/40_register_register.md R60 to R67). Both sources are read in the state before the write (R60). -/

namespace Sys2Proof.Machine

/-- `add $d,$s,$t`: `x[d] <- to_i32(x[s] + x[t])`; `pc <- pc + 1`. R61. -/
def execAdd (d s t : RegIdx) (st : State) : Result :=
  .next (st.retire d (aluAdd (st.readReg s) (st.readReg t)))

/-- `sub $d,$s,$t`: `x[d] <- to_i32(x[s] - x[t])`; `pc <- pc + 1`. R62. -/
def execSub (d s t : RegIdx) (st : State) : Result :=
  .next (st.retire d (aluSub (st.readReg s) (st.readReg t)))

/-- `and $d,$s,$t`: bitwise AND; `pc <- pc + 1`. R63. -/
def execAnd (d s t : RegIdx) (st : State) : Result :=
  .next (st.retire d (aluAnd (st.readReg s) (st.readReg t)))

/-- `or $d,$s,$t`: bitwise OR; `pc <- pc + 1`. R64. -/
def execOr (d s t : RegIdx) (st : State) : Result :=
  .next (st.retire d (aluOr (st.readReg s) (st.readReg t)))

/-- `slt $d,$s,$t`: `x[d] <- (x[s] < x[t]) ? 1 : 0`, signed; `pc <- pc + 1`. R65. -/
def execSlt (d s t : RegIdx) (st : State) : Result :=
  .next (st.retire d (setLess (st.readReg s) (st.readReg t)))

/-- `mul $d,$s,$t`: `x[d] <- to_i32(x[s] * x[t])`; `pc <- pc + 1`. R66. -/
def execMul (d s t : RegIdx) (st : State) : Result :=
  .next (st.retire d (aluMul (st.readReg s) (st.readReg t)))

end Sys2Proof.Machine
end

