-- ==== Sys2Proof/Machine/Syscall.lean ====
section
/-! DEFINITION. `syscall` (spec/44_syscall.md R88 to R93). The service is performed by the block itself within the step; there is
no trap, no saved pc and no return instruction (R95). -/

namespace Sys2Proof.Machine

/-- `syscall`: on `Continue`, `x[0] <- 0` and `pc <- pc + 1`; on `Halt`, `run_state <- Halted` at once, registers and pc
kept. R88, R24 step 3; D5, log 18. -/
def execSyscall (st : State) : Result :=
  match st.syscallService with
  | (st', .continue) => .next (st'.finish st.nextPc)
  | (st', .halt) => .next st'.halt

end Sys2Proof.Machine
end

