-- ==== Sys2Proof/Machine/Dispatch.lean ====
section
/-! DEFINITION. One arm per instruction: its meaning (spec/10_state.md R24 steps 3 to 7). -/

namespace Sys2Proof.Machine

def exec (i : Instr) (s : State) : Host.Outcome State Fault Refusal :=
  match i with
  | .syscall => Sys2Proof.Machine.execSyscall s
  | .add d rs rt => Sys2Proof.Machine.execAdd d rs rt s
  | .sub d rs rt => Sys2Proof.Machine.execSub d rs rt s
  | .and d rs rt => Sys2Proof.Machine.execAnd d rs rt s
  | .or d rs rt => Sys2Proof.Machine.execOr d rs rt s
  | .slt d rs rt => Sys2Proof.Machine.execSlt d rs rt s
  | .mul d rs rt => Sys2Proof.Machine.execMul d rs rt s
  | .beq rs rt imm => Sys2Proof.Machine.execBeq rs rt imm s
  | .bne rs rt imm => Sys2Proof.Machine.execBne rs rt imm s
  | .addi rt rs imm => Sys2Proof.Machine.execAddi rt rs imm s
  | .slti rt rs imm => Sys2Proof.Machine.execSlti rt rs imm s
  | .andi rt rs raw => Sys2Proof.Machine.execAndi rt rs raw s
  | .ori rt rs raw => Sys2Proof.Machine.execOri rt rs raw s
  | .lui rt raw => Sys2Proof.Machine.execLui rt raw s

end Sys2Proof.Machine
end

