-- ==== Sys2Proof/Machine/Step.lean ====
section
/-! DEFINITION. One step of the core (spec/10_state.md R24): check that a step is possible, fetch, decode, execute; and the
host's way to place one instruction where the step fetches it. -/

namespace Sys2Proof.Machine

/-- `Step()`: R24. In a terminal state (R126) it takes no step and answers which kind it is (log 6). -/
def step (s : State) : Host.Outcome State Fault Refusal :=
  match s.fetch with
  | .error stop => .fault stop
  | .ok w =>
    match decode w with
    | .error _ => execUndecodable w s
    | .ok i => exec i s

/-- `s` with the instruction word `w` (`nbits` bits given, the rest zero) loaded at the pc, and the core able to step. A pc
outside the store's index range is set to 0, since nothing can be loaded there. Stands for the host's load of R128; log 2. -/
def State.withFetchWord (s : State) (nbits w : Nat) : State :=
  let at0 : PcIndex := if 0 ≤ s.pc.toInt ∧ s.pc.toInt < Config.programMax then s.pc else 0#32
  { s with
    pc := at0
    runState := .running
    fault := none
    imem := Memory.place s.imem at0.toNat (BitVec.ofNat 32 (w % 2 ^ nbits)) }

end Sys2Proof.Machine
end

