-- ==== Sys2Proof/Machine/Run.lean ====
section
/-! DEFINITION. What surrounds the step: load and reset (spec/70_reset_and_hazards.md R120 to R122, R128), the end of a run and
its cause (R126, R127), what the host reads afterwards (R129 to R131), and the whole simulator with its listing pass
(spec/60_exceptions.md R103, R112). -/

namespace Sys2Proof.Machine

/-! ### Load and reset -/

/-- Reset: every piece of state takes its value of R26; the program stays loaded. R120. -/
def State.resetCore (s : State) : State := { State.reset with imem := s.imem }

/-- The host's fatal load error: no run takes place. R103. -/
inductive LoadError where
  | loadOverflow
  deriving DecidableEq, Repr

/-- Load the words in order from index 0, `PROGRAM_LEN` their number, then reset: at most `PROGRAM_MAX` words. R103, R122,
R128; C2, D2 (log 9). -/
def boot (program : List Word) : Except LoadError State :=
  if program.length ≤ Config.programMax then .ok { State.reset with imem := program } else .error .loadOverflow

/-! ### The end of a run -/

/-- Why a run is over; the names are the spec's own. R127, D16. -/
inductive EndCause where
  | exit
  | unknownSyscall (code : Word)
  | decodeFailure (position : Nat) (word : Word)
  | fellOff
  deriving DecidableEq, Repr

/-- The cause read off a terminal state, none when a step is possible. R126, R127; D16, log 6, log 16. -/
def State.endCause (s : State) : Option EndCause :=
  match s.runState, s.fault with
  | .halted, _ => some (if s.serviceCode.toInt = 10 then .exit else .unknownSyscall s.serviceCode)
  | .running, some (.decodeFailure position word) => some (.decodeFailure position word)
  | .running, none =>
    match Memory.word? s.imem s.pc.toInt with
    | some _ => none
    | none => some .fellOff

/-- The state after a step, and the same state where no step is taken ("nothing changes any more"). R25, R126. -/
def State.after (s : State) : State :=
  match step s with
  | .next t => t
  | .fault _ => s
  | .refused _ => s

/-- How far a run came under fuel; running out of it is neither a result nor a fault. R133, D20 (log 19). -/
inductive RunOutcome where
  | ended (cause : EndCause) (s : State)
  | outOfFuel (s : State)
  deriving DecidableEq, Repr

/-- Repeat the step until a terminal state is reached, at most `fuel` times. R127, R133. -/
def runFrom : Nat → State → RunOutcome
  | 0, s =>
    match s.endCause with
    | some cause => .ended cause s
    | none => .outOfFuel s
  | fuel + 1, s =>
    match s.endCause with
    | some cause => .ended cause s
    | none => runFrom fuel s.after

/-! ### What the host reads -/

/-- The register listing as data: the nonzero registers with their signed values, in ascending order. R130; D15 (log 13). -/
def State.finalRegisters (s : State) : List (RegIdx × Int) :=
  ((List.finRange 32).filter fun i => s.readReg i != 0#32).map fun i => (i, (s.readReg i).toInt)

/-- What the host reports at the end: the registers after a normal end (kinds (a) and (c)), the fault after an abort
(kind (b)), never both. R126, R130, R131. -/
inductive HostReport where
  | registers (listing : List (RegIdx × Int))
  | fault (position : Nat) (word : Word)
  deriving DecidableEq, Repr

/-- R127, R130, R131. -/
def hostReport (cause : EndCause) (s : State) : HostReport :=
  match cause with
  | .exit => .registers s.finalRegisters
  | .unknownSyscall _ => .registers s.finalRegisters
  | .fellOff => .registers s.finalRegisters
  | .decodeFailure position word => .fault position word

/-! ### The whole simulator -/

/-- The listing pass: every word with its 0-based index, and the first word that does not decode with its 1-based position,
which aborts the rest. R58, R112; C8, log 14. -/
def listingFrom : Nat → List Word → List (Nat × Instr) × Option FaultRecord
  | _, [] => ([], none)
  | k, w :: rest =>
    match decode w with
    | .error _ => ([], some (.decodeFailure (k + 1) w))
    | .ok i => ((k, i) :: (listingFrom (k + 1) rest).1, (listingFrom (k + 1) rest).2)

/-- What became of a program given to the simulator. R103, R112, R127. -/
inductive SimOutcome where
  | loadOverflow
  | listingAborted (listing : List (Nat × Instr)) (fault : FaultRecord)
  | ran (listing : List (Nat × Instr)) (outcome : RunOutcome)
  deriving DecidableEq, Repr

/-- The simulator: load, list every word, and only then run. R103, R112; D7, log 14. -/
def simulate (fuel : Nat) (program : List Word) : SimOutcome :=
  match boot program with
  | .error .loadOverflow => .loadOverflow
  | .ok s =>
    match (listingFrom 0 program).2 with
    | some fault => .listingAborted (listingFrom 0 program).1 fault
    | none => .ran (listingFrom 0 program).1 (runFrom fuel s)

end Sys2Proof.Machine
end

