-- ==== Sys2Proof/Machine/HostText.lean ====
section
/-! DEFINITION. The text the host makes of instructions, events, registers and faults (spec/30_encoding.md R56 to R58,
44 R94, 60 R102, 70 R130). It is host software, out of scope by R4, and constrains no behaviour of the core; what the spec
leaves open in it is a constant of Config with no body, or a choice of the model that log 12 names. -/

namespace Sys2Proof.Machine

/-- The fourteen mnemonics, all lower case. R1, R56. -/
def mnemonicText : Instr → String
  | .syscall => "syscall"
  | .add _ _ _ => "add"
  | .sub _ _ _ => "sub"
  | .and _ _ _ => "and"
  | .or _ _ _ => "or"
  | .slt _ _ _ => "slt"
  | .mul _ _ _ => "mul"
  | .beq _ _ _ => "beq"
  | .bne _ _ _ => "bne"
  | .addi _ _ _ => "addi"
  | .slti _ _ _ => "slti"
  | .andi _ _ _ => "andi"
  | .ori _ _ _ => "ori"
  | .lui _ _ => "lui"

/-- An operand as it is written: a register or an integer. R56. -/
inductive AsmOperand where
  | reg (i : RegIdx)
  | int (v : Int)
  deriving DecidableEq, Repr

/-- The operands in the order of R57; a branch shows `imm`, and `andi`, `ori`, `lui` show `raw_imm` (the spec's notation, D12). -/
def asmOperands : Instr → List AsmOperand
  | .syscall => []
  | .add d s t => [.reg d, .reg s, .reg t]
  | .sub d s t => [.reg d, .reg s, .reg t]
  | .and d s t => [.reg d, .reg s, .reg t]
  | .or d s t => [.reg d, .reg s, .reg t]
  | .slt d s t => [.reg d, .reg s, .reg t]
  | .mul d s t => [.reg d, .reg s, .reg t]
  | .beq s t imm => [.reg s, .reg t, .int imm]
  | .bne s t imm => [.reg s, .reg t, .int imm]
  | .addi t s imm => [.reg t, .reg s, .int imm]
  | .slti t s imm => [.reg t, .reg s, .int imm]
  | .andi t s raw => [.reg t, .reg s, .int raw.toNat]
  | .ori t s raw => [.reg t, .reg s, .int raw.toNat]
  | .lui t raw => [.reg t, .int raw.toNat]

/-- `$<number>` in decimal, or a decimal integer with its sign. R12, R56. -/
def asmOperandText : AsmOperand → String
  | .reg i => "$" ++ toString i.val
  | .int v => toString v

/-- An instruction in the spec's assembly: one space, then the operands separated by commas. R57, D12. -/
def assemblyText (i : Instr) : String :=
  match asmOperands i with
  | [] => mnemonicText i
  | operands => mnemonicText i ++ " " ++ ",".intercalate (operands.map asmOperandText)

/-- The number an operand stands for, which the original's renderer is given. R58. -/
def asmOperandNumber : AsmOperand → Int
  | .reg i => i.val
  | .int v => v

/-- The original's listing line, mnemonic and operand list after the 0-based index; the form of the operand list is open
(N8). R58; log 12. -/
def listingLine (line : Nat × Instr) : String :=
  toString line.1 ++ ": " ++ mnemonicText line.2 ++ " "
    ++ Config.renderOperandList (mnemonicText line.2) ((asmOperands line.2).map asmOperandNumber)

/-- The text of one event: a decimal numeral with `-` for negatives, one character, or the diagnostic whose wording is
open. R94; D11, log 12. DESIGN CHOICE (log 12): R94 says the character with code `c`, one byte, and names no character set; the
model takes the Unicode character with code point `c`, for codes 128 to 255 too. It stands for the one byte `c`, whatever
number of bytes an encoding of the text would give it. -/
def eventText : Event → String
  | .printInt v => toString v.toInt
  | .printChar c => String.singleton (Char.ofNat c.toNat)
  | .unknownSyscall code => Config.unknownSyscallText code

/-- The program's output: the events' texts in order of emission with nothing added between them. R94, R129. -/
def outputText (events : List Event) : String := (events.map eventText).foldr (· ++ ·) ""

/-- A register index in decimal, left-padded to width 2. R130; which character pads it is open (log 12). -/
def paddedIndex (i : RegIdx) : String :=
  if i.val < 10 then String.singleton Config.registerLinePad ++ toString i.val else toString i.val

/-- One line of the register listing: `$<index left-padded to width 2> = <value>`. R130. -/
def registerLine (entry : RegIdx × Int) : String :=
  "$" ++ paddedIndex entry.1 ++ " = " ++ toString entry.2

/-- The lines of the host's report: the register listing after a normal end, the error text after an abort. R102, R130, R131.
DESIGN CHOICE (log 12): R102 and N7 leave the exact punctuation of the error text open; the model has single spaces, the colon
after `code`, no quotation marks round the two values and nothing after the position. What spells the word (a `0x` prefix
included) is open in `Config.hexWordText`. -/
def reportText : HostReport → List String
  | .registers listing => "Registers After Execution" :: listing.map registerLine
  | .fault position word =>
    ["invalid instruction code: " ++ Config.hexWordText word ++ " at position " ++ toString position]

/-- The host's text for `LoadOverflow`. R103. -/
def loadOverflowText : String := "max instructions received"

/-- A piece of a host stream: a line of its own, or the program's text, to which R94 adds no line end. What stands between that
text and the next line is not in the spec, and the pieces do not say it: DESIGN CHOICE, log 12. -/
inductive StreamItem where
  | line (text : String)
  | programText (text : String)
  deriving DecidableEq, Repr

/-- The host's two streams, piece by piece. R94, R102. -/
structure HostStreams where
  output : List StreamItem
  error : List StreamItem
  deriving DecidableEq, Repr

/-- The output stream's pieces up to the end of the run, in the fixed order of R112: the header lines, the listing, and the
program's text as one piece, which is there and empty when no event was emitted (log 12). -/
def runOutput (listing : List (Nat × Instr)) (events : List Event) : List StreamItem :=
  .line "Program" :: listing.map (fun l => .line (listingLine l))
    ++ [.line "Output", .programText (outputText events)]

/-- The streams of a simulator run in the fixed order of R112 and R130; none for a run that has not ended. A fault report goes
to the error stream (R102), a register listing to the output. Nothing is listed before `LoadOverflow` (R103; log 12). -/
def simulatorText : SimOutcome → Option HostStreams
  | .loadOverflow => some ⟨[], [.line loadOverflowText]⟩
  | .listingAborted listing (.decodeFailure position word) =>
    some ⟨.line "Program" :: listing.map (fun l => .line (listingLine l)), (reportText (.fault position word)).map .line⟩
  | .ran _ (.outOfFuel _) => none
  | .ran listing (.ended cause s) =>
    match hostReport cause s with
    | .registers regs => some ⟨runOutput listing s.out ++ (reportText (.registers regs)).map .line, []⟩
    | .fault position word => some ⟨runOutput listing s.out, (reportText (.fault position word)).map .line⟩

end Sys2Proof.Machine
end

