-- ==== Sys2Proof/Safety.lean ====
section
/-! DEFINITION. What the claims are about: the invariant of the core's states, what an instruction reads and writes
(spec/10_state.md R13), and the effect of an instruction that writes one register (R24 steps 5 to 7). -/

namespace Sys2Proof

/-- The registers an instruction reads, given the service code `x[2]` holds: `syscall` reads `x[2]`, and `x[4]` when `x[2]` is 1
or 11. R13. -/
def Instr.sources (i : Instr) (code : Word) : List RegIdx :=
  match i with
  | .syscall =>
    if code.toInt = 1 ∨ code.toInt = 11 then [Config.syscallCodeReg, Config.syscallArgReg] else [Config.syscallCodeReg]
  | .add _ s t => [s, t]
  | .sub _ s t => [s, t]
  | .and _ s t => [s, t]
  | .or _ s t => [s, t]
  | .slt _ s t => [s, t]
  | .mul _ s t => [s, t]
  | .beq s t _ => [s, t]
  | .bne s t _ => [s, t]
  | .addi _ s _ => [s]
  | .slti _ s _ => [s]
  | .andi _ s _ => [s]
  | .ori _ s _ => [s]
  | .lui _ _ => []

/-- The one register an instruction writes, none for the branches and `syscall`. R13. -/
def Instr.dest : Instr → Option RegIdx
  | .syscall => none
  | .add d _ _ => some d
  | .sub d _ _ => some d
  | .and d _ _ => some d
  | .or d _ _ => some d
  | .slt d _ _ => some d
  | .mul d _ _ => some d
  | .beq _ _ _ => none
  | .bne _ _ _ => none
  | .addi t _ _ => some t
  | .slti t _ _ => some t
  | .andi t _ _ => some t
  | .ori t _ _ => some t
  | .lui t _ => some t

end Sys2Proof

namespace Sys2Proof.Machine

/-- How a core that is `Halted` came to be so: the pc still indexes the `syscall` word (D5, log 18), no fault is recorded, and
`x[2]` shows the code: 10, or an unknown code that the last event names. R88, R91, R93, R127. -/
def State.HaltedBySyscall (s : State) : Prop :=
  s.fault = none ∧ Memory.word? s.imem s.pc.toInt = some syscallWord ∧
    (s.serviceCode.toInt = 10 ∨
      (s.serviceCode.toInt ≠ 1 ∧ s.serviceCode.toInt ≠ 10 ∧ s.serviceCode.toInt ≠ 11 ∧
        s.out.getLast? = some (.unknownSyscall s.serviceCode)))

/-- What a recorded `DecodeFailure` says: the core is still `Running`, the pc still indexes the failing word, the position is
`pc + 1` in `[1, PROGRAM_LEN]`, and the word does not decode. R17, R101, R102, R108; D6, log 7. -/
def State.FaultIsOf (s : State) (position : Nat) (word : Word) : Prop :=
  s.runState = .running ∧ Memory.word? s.imem s.pc.toInt = some word ∧ (position : Int) = s.pc.toInt + 1 ∧
    1 ≤ position ∧ position ≤ s.imem.length ∧ decodable word = false

/-- The invariant of every state a run can reach. -/
structure State.Inv (s : State) : Prop where
  /-- The store holds at most `PROGRAM_MAX` words. R30. -/
  store : Memory.wf s.imem = true
  /-- The slot of `x[0]` holds 0 between steps. R11, R24 step 6. -/
  zero : s.regs[0] = 0#32
  /-- `-32768 <= pc <= 33766`: the pc never wraps. R15. -/
  pcRange : -32768 ≤ s.pc.toInt ∧ s.pc.toInt ≤ 33766
  /-- R16, R127. -/
  halted : s.runState = .halted → s.HaltedBySyscall
  /-- R17. -/
  faulted : ∀ position word, s.fault = some (.decodeFailure position word) → s.FaultIsOf position word

/-- Every word of the program decodes: the premise of R112. -/
def Memory.AllDecodable (m : Memory) : Prop := ∀ w ∈ m, decodable w = true

/-- Everything but the registers and the pc is as before, the whole program store included. -/
def SameControl (s t : State) : Prop :=
  t.runState = s.runState ∧ t.fault = s.fault ∧ t.out = s.out ∧ t.imem = s.imem

/-- `t` is `s` after a write of `v` to `x[dest]` and `pc <- pc + 1`: the destination reads `v` (0 for register 0, whose write is
discarded), every other register reads as before, and nothing else changes. R11, R24 steps 5 to 7. -/
def WritesReg (s t : State) (dest : RegIdx) (v : Word) : Prop :=
  (∀ i, t.readReg i = if i = dest ∧ dest ≠ 0 then v else s.readReg i) ∧
    t.pc = s.pc + 1#32 ∧ SameControl s t

/-- `t` is `s` with the pc at `next`, every register reading as before, and nothing else changed. R24 steps 4, 6, 7. -/
def OnlyMovesPc (s t : State) (next : PcIndex) : Prop :=
  (∀ i, t.readReg i = s.readReg i) ∧ t.pc = next ∧ SameControl s t

/-- A safe run: no state on the way refuses an instruction, and every stop is a terminal state of R126. -/
def SafeStep (s : State) : Prop :=
  (∀ r, step s ≠ .refused r) ∧ ∀ f, step s = .fault f → s.canStep = false

end Sys2Proof.Machine
end

