-- ==== Sys2Proof/Certificates/Slice0/Obligations.lean ====
section
/-! DEFINITION. The statements for the provers, in the order of OBLIGATIONS.json. Each docstring names the rule of spec/ it
formalises; a clause that rests on a decision of the spec or on a choice of the model names its log entry. -/

open Sys2Proof Sys2Proof.Machine

/-! ### Fields, decoder, encoder (spec/30_encoding.md) -/

/-- R41, R42: the fields are the shift-and-mask formulas of the document. -/
def Obligations.FieldsAreShiftAndMask : Prop :=
  ∀ w : Word,
    (opcodeField w).toNat = (w.toNat >>> 26) &&& 0x3F ∧
    (sField w).val = (w.toNat >>> 21) &&& 0x1F ∧
    (tField w).val = (w.toNat >>> 16) &&& 0x1F ∧
    (dField w).val = (w.toNat >>> 11) &&& 0x1F

/-- R44 at the threshold 32768 of D1 (log 8): the signed immediate is the two's-complement reading of the raw one (C1), in
`[-32768, 32767]`; the bug-compatible threshold 32767 differs from it at `0x7FFF` only, which it reads as `-32769`. -/
def Obligations.SignedImmediateIsTwosComplement : Prop :=
  ∀ raw : BitVec 16,
    sext16 raw = raw.toInt ∧ -32768 ≤ sext16 raw ∧ sext16 raw ≤ 32767 ∧
    sext16 raw = (if raw.toNat < 32768 then (raw.toNat : Int) else raw.toNat - 65536) ∧
    (sext16At 32767 raw = sext16 raw ↔ raw ≠ 0x7FFF#16) ∧ sext16At 32767 0x7FFF#16 = -32769

/-- R55, with the choice of 0 for the ignored bits (D10, log 10): decoding the canonical word of a well-formed instruction gives
it back, and encoding a decoded word gives the word back exactly when its ignored bits are zero. -/
def Obligations.DecodeInvertsEncode : Prop :=
  (∀ i : Instr, i.wf = true → decode (encode i) = .ok i) ∧
  ∀ (w : Word) (i : Instr), decode w = .ok i → (encode i = w ↔ w &&& i.ignoredMask = 0#32)

/-- R55: the fourteen formulas of `Encode`, for every operand value (D10, log 10, for the zero bits). -/
def Obligations.EncoderIsTheFormulas : Prop :=
  ∀ (d s t : RegIdx) (imm : Int) (raw : BitVec 16),
    let S := BitVec.ofNat 32 s.val <<< 21
    let T := BitVec.ofNat 32 t.val <<< 16
    let D := BitVec.ofNat 32 d.val <<< 11
    let I := BitVec.ofInt 32 (imm % 65536)
    let W := BitVec.ofNat 32 raw.toNat
    encode (.add d s t) = S ||| T ||| D ||| 0x20#32 ∧
    encode (.sub d s t) = S ||| T ||| D ||| 0x22#32 ∧
    encode (.and d s t) = S ||| T ||| D ||| 0x24#32 ∧
    encode (.or d s t) = S ||| T ||| D ||| 0x25#32 ∧
    encode (.slt d s t) = S ||| T ||| D ||| 0x2A#32 ∧
    encode (.mul d s t) = 0x70000000#32 ||| S ||| T ||| D ∧
    encode (.beq s t imm) = 0x10000000#32 ||| S ||| T ||| I ∧
    encode (.bne s t imm) = 0x14000000#32 ||| S ||| T ||| I ∧
    encode (.addi t s imm) = 0x20000000#32 ||| S ||| T ||| I ∧
    encode (.slti t s imm) = 0x28000000#32 ||| S ||| T ||| I ∧
    encode (.andi t s raw) = 0x30000000#32 ||| S ||| T ||| W ∧
    encode (.ori t s raw) = 0x34000000#32 ||| S ||| T ||| W ∧
    encode (.lui t raw) = 0x3C000000#32 ||| T ||| W ∧
    encode .syscall = 0x0000000C#32

/-- R44, R45 (and D1, log 8, for the range): every operand the decoder gives is in the range the encoding admits. -/
def Obligations.DecodedInstructionsAreWellFormed : Prop :=
  ∀ (w : Word) (i : Instr), decode w = .ok i → i.wf = true

/-- R46: `syscall` is the one word `0x0000000C`, and every other word with opcode 0 and funct `0x0C` is `Fail`. -/
def Obligations.SyscallIsOneWord : Prop :=
  (∀ w : Word, decode w = .ok .syscall ↔ w = 0x0000000C#32) ∧
  ∀ w : Word, opcodeField w = 0#6 → functField w = 0x0C#6 → w ≠ 0x0000000C#32 → ∃ e, decode w = .error e

/-- R49 with R46 to R48: a word is `Fail` exactly when it is not the `syscall` word, no funct of the table under opcode 0, and
no opcode of the table. -/
def Obligations.DecodeFailsExactlyOutsideTheMap : Prop :=
  ∀ w : Word, (∃ e, decode w = .error e) ↔
    ¬(w = 0x0000000C#32 ∨
      (opcodeField w = 0#6 ∧ functField w ∈ [0x20#6, 0x22#6, 0x24#6, 0x25#6, 0x2A#6]) ∨
      opcodeField w ∈ [0x1C#6, 0x04#6, 0x05#6, 0x08#6, 0x0A#6, 0x0C#6, 0x0D#6, 0x0F#6])

/-- R51: a word that differs from another only in the ignored bits of its instruction decodes to the same instruction with the
same operands. -/
def Obligations.IgnoredBitsNeverMatter : Prop :=
  ∀ (w v : Word) (i : Instr), decode w = .ok i → v &&& ~~~i.ignoredMask = w &&& ~~~i.ignoredMask → decode v = .ok i

/-- Words written out from R50, one or two of each format, through the host's probe. R50, R53; vectors D6, D8, D16, D19, D20,
D21, D24, D26 and D4 of spec/95_test_vectors.md. -/
def Obligations.WrittenOutWordsDecode : Prop :=
  decodeTableWord 32 0x0000000C = some .syscall ∧
  decodeTableWord 32 0x00000020 = some (.add 0 0 0) ∧
  decodeTableWord 32 0x00221FE0 = some (.add 3 1 2) ∧
  decodeTableWord 32 0x70221FFF = some (.mul 3 1 2) ∧
  decodeTableWord 32 0x13FFFFFF = some (.beq 31 31 (-1)) ∧
  decodeTableWord 32 0x17E08000 = some (.bne 31 0 (-32768)) ∧
  decodeTableWord 32 0x2128FFFB = some (.addi 8 9 (-5)) ∧
  decodeTableWord 32 0x37E0FFFF = some (.ori 0 31 0xFFFF#16) ∧
  decodeTableWord 32 0x3FE81234 = some (.lui 8 0x1234#16) ∧
  decodeTableWord 32 0x00000000 = none

/-! ### Register-register instructions (spec/40_register_register.md) -/

/-- R61: `add`, its encoding, its result and its frame, for every operand (a destination of 0 included). -/
def Obligations.AddWritesWrappedSum : Prop :=
  (∀ w : Word, w &&& 0xFC00003F#32 = 0x00000020#32 → decode w = .ok (.add (dField w) (sField w) (tField w))) ∧
  ∀ (d s t : RegIdx) (st : State), ∃ u, exec (.add d s t) st = .next u ∧
    WritesReg st u d (BitVec.ofInt 32 ((st.readReg s).toInt + (st.readReg t).toInt))

/-- R62: `sub`, with `s` the minuend. -/
def Obligations.SubWritesWrappedDifference : Prop :=
  (∀ w : Word, w &&& 0xFC00003F#32 = 0x00000022#32 → decode w = .ok (.sub (dField w) (sField w) (tField w))) ∧
  ∀ (d s t : RegIdx) (st : State), ∃ u, exec (.sub d s t) st = .next u ∧
    WritesReg st u d (BitVec.ofInt 32 ((st.readReg s).toInt - (st.readReg t).toInt))

/-- R63: `and`: each of the 32 result bits is the AND of the corresponding bits of the two sources. -/
def Obligations.AndWritesBitwiseAnd : Prop :=
  (∀ w : Word, w &&& 0xFC00003F#32 = 0x00000024#32 → decode w = .ok (.and (dField w) (sField w) (tField w))) ∧
  ∀ (d s t : RegIdx) (st : State), ∃ u v, exec (.and d s t) st = .next u ∧ WritesReg st u d v ∧
    ∀ k < 32, v.getLsbD k = ((st.readReg s).getLsbD k && (st.readReg t).getLsbD k)

/-- R64: `or`, bit by bit. -/
def Obligations.OrWritesBitwiseOr : Prop :=
  (∀ w : Word, w &&& 0xFC00003F#32 = 0x00000025#32 → decode w = .ok (.or (dField w) (sField w) (tField w))) ∧
  ∀ (d s t : RegIdx) (st : State), ∃ u v, exec (.or d s t) st = .next u ∧ WritesReg st u d v ∧
    ∀ k < 32, v.getLsbD k = ((st.readReg s).getLsbD k || (st.readReg t).getLsbD k)

/-- R65: `slt`, comparing the signed values. -/
def Obligations.SltWritesSignedComparison : Prop :=
  (∀ w : Word, w &&& 0xFC00003F#32 = 0x0000002A#32 → decode w = .ok (.slt (dField w) (sField w) (tField w))) ∧
  ∀ (d s t : RegIdx) (st : State), ∃ u, exec (.slt d s t) st = .next u ∧
    WritesReg st u d (if (st.readReg s).toInt < (st.readReg t).toInt then 1#32 else 0#32)

/-- R66: `mul`, the low 32 bits of the exact product. -/
def Obligations.MulWritesLowProduct : Prop :=
  (∀ w : Word, w &&& 0xFC000000#32 = 0x70000000#32 → decode w = .ok (.mul (dField w) (sField w) (tField w))) ∧
  ∀ (d s t : RegIdx) (st : State), ∃ u, exec (.mul d s t) st = .next u ∧
    WritesReg st u d (BitVec.ofInt 32 ((st.readReg s).toInt * (st.readReg t).toInt))

/-! ### Branches (spec/41_branch.md) -/

/-- R71: `beq`, taken exactly when all 32 bits are equal; only the pc moves. -/
def Obligations.BeqMovesPcWhenEqual : Prop :=
  (∀ w : Word, w &&& 0xFC000000#32 = 0x10000000#32 →
    decode w = .ok (.beq (sField w) (tField w) (sext16 (rawImmField w)))) ∧
  ∀ (s t : RegIdx) (imm : Int) (st : State), ∃ u, exec (.beq s t imm) st = .next u ∧
    OnlyMovesPc st u (if st.readReg s = st.readReg t then st.pc + BitVec.ofInt 32 imm else st.pc + 1#32)

/-- R72: `bne`. -/
def Obligations.BneMovesPcWhenNotEqual : Prop :=
  (∀ w : Word, w &&& 0xFC000000#32 = 0x14000000#32 →
    decode w = .ok (.bne (sField w) (tField w) (sext16 (rawImmField w)))) ∧
  ∀ (s t : RegIdx) (imm : Int) (st : State), ∃ u, exec (.bne s t imm) st = .next u ∧
    OnlyMovesPc st u (if st.readReg s ≠ st.readReg t then st.pc + BitVec.ofInt 32 imm else st.pc + 1#32)

/-- R70, R125: where a branch of a loaded program is taken, the very next fetch is at the exact integer `pc + imm`, unscaled and
relative to the branch itself, with no delay slot; where that is outside the program, the next step is the normal end of R126
(c) (D16, log 6). -/
def Obligations.TakenBranchGoesStraightToItsTarget : Prop :=
  ∀ (st : State) (w : Word) (s t : RegIdx) (imm : Int),
    Memory.wf st.imem = true → st.fetch = .ok w →
    (decode w = .ok (.beq s t imm) ∧ st.readReg s = st.readReg t ∨
      decode w = .ok (.bne s t imm) ∧ st.readReg s ≠ st.readReg t) →
    ∃ u, step st = .next u ∧ u.pc.toInt = st.pc.toInt + imm ∧
      u.fetch = (match Memory.word? st.imem (st.pc.toInt + imm) with
        | some v => .ok v
        | none => .error .fellOff)

/-! ### Immediates (spec/42_immediate.md, 43_load_upper.md) -/

/-- R76: `addi`. -/
def Obligations.AddiWritesWrappedSum : Prop :=
  (∀ w : Word, w &&& 0xFC000000#32 = 0x20000000#32 →
    decode w = .ok (.addi (tField w) (sField w) (sext16 (rawImmField w)))) ∧
  ∀ (t s : RegIdx) (imm : Int) (st : State), ∃ u, exec (.addi t s imm) st = .next u ∧
    WritesReg st u t (BitVec.ofInt 32 ((st.readReg s).toInt + imm))

/-- R77: `slti`, comparing the signed value with the signed immediate. -/
def Obligations.SltiWritesSignedComparison : Prop :=
  (∀ w : Word, w &&& 0xFC000000#32 = 0x28000000#32 →
    decode w = .ok (.slti (tField w) (sField w) (sext16 (rawImmField w)))) ∧
  ∀ (t s : RegIdx) (imm : Int) (st : State), ∃ u, exec (.slti t s imm) st = .next u ∧
    WritesReg st u t (if (st.readReg s).toInt < imm then 1#32 else 0#32)

/-- R78: `andi`, with the zero-extended constant: bits 31 to 16 of the result are 0, the low half is the AND, and the result
is in `[0, 65535]`. -/
def Obligations.AndiUsesZeroExtendedConstant : Prop :=
  (∀ w : Word, w &&& 0xFC000000#32 = 0x30000000#32 →
    decode w = .ok (.andi (tField w) (sField w) (rawImmField w))) ∧
  ∀ (t s : RegIdx) (raw : BitVec 16) (st : State), ∃ u v, exec (.andi t s raw) st = .next u ∧ WritesReg st u t v ∧
    (∀ k < 32, v.getLsbD k = (decide (k < 16) && (st.readReg s).getLsbD k && raw.getLsbD k)) ∧
    0 ≤ v.toInt ∧ v.toInt ≤ 65535

/-- R79: `ori`, with the zero-extended constant: bits 31 to 16 pass through, the low half is the OR. -/
def Obligations.OriUsesZeroExtendedConstant : Prop :=
  (∀ w : Word, w &&& 0xFC000000#32 = 0x34000000#32 →
    decode w = .ok (.ori (tField w) (sField w) (rawImmField w))) ∧
  ∀ (t s : RegIdx) (raw : BitVec 16) (st : State), ∃ u v, exec (.ori t s raw) st = .next u ∧ WritesReg st u t v ∧
    ∀ k < 32, v.getLsbD k = ((st.readReg s).getLsbD k || (decide (k < 16) && raw.getLsbD k))

/-- R85: `lui`, which reads no register; the sign-extended immediate would give the same value. -/
def Obligations.LuiWritesShiftedConstant : Prop :=
  (∀ w : Word, w &&& 0xFC000000#32 = 0x3C000000#32 → decode w = .ok (.lui (tField w) (rawImmField w))) ∧
  ∀ (t : RegIdx) (raw : BitVec 16) (st : State), ∃ u, exec (.lui t raw) st = .next u ∧
    WritesReg st u t (BitVec.ofInt 32 ((raw.toNat : Int) * 65536)) ∧
    BitVec.ofInt 32 ((raw.toNat : Int) * 65536) = BitVec.ofInt 32 (sext16 raw * 65536)

/-- R85, R79: `lui` then `ori` on one register other than 0 builds `hi * 65536 + lo`, for any two halves, and changes no other
register. -/
def Obligations.LuiThenOriBuildsAnyConstant : Prop :=
  ∀ (t : RegIdx) (hi lo : BitVec 16) (st : State), t ≠ 0 →
    ∃ u v, exec (.lui t hi) st = .next u ∧ exec (.ori t t lo) u = .next v ∧
      v.readReg t = BitVec.ofInt 32 ((hi.toNat : Int) * 65536 + lo.toNat) ∧
      (∀ r, r ≠ t → v.readReg r = st.readReg r) ∧ v.pc = st.pc + 2#32 ∧ SameControl st v

/-! ### Arithmetic as a whole (R67) -/

/-- R67 in part: `add`, `sub`, `addi` and `mul` write the exact result where it fits and otherwise one that differs from it by a
multiple of `2^32`; `and`, `or`, `andi`, `ori` work bit by bit; `slt` and `slti` give exactly 0 or 1. (That nothing traps is
`NoInstructionIsExceptional`; that the comparison is signed, `SltWritesSignedComparison` and `SltiWritesSignedComparison`; a
destination of 0, `RegisterZeroIsHardwired`.) -/
def Obligations.ArithmeticWrapsModulo32Bits : Prop :=
  (∀ (d s t : RegIdx) (imm : Int) (st u : State) (i : Instr) (e : Int),
    (i = .add d s t ∧ e = (st.readReg s).toInt + (st.readReg t).toInt ∨
     i = .sub d s t ∧ e = (st.readReg s).toInt - (st.readReg t).toInt ∨
     i = .mul d s t ∧ e = (st.readReg s).toInt * (st.readReg t).toInt ∨
     i = .addi d s imm ∧ e = (st.readReg s).toInt + imm) →
    d ≠ 0 → exec i st = .next u →
    (∃ k : Int, (u.readReg d).toInt = e + k * 2 ^ 32) ∧
    (-2 ^ 31 ≤ e → e ≤ 2 ^ 31 - 1 → (u.readReg d).toInt = e)) ∧
  (∀ (d s t : RegIdx) (raw : BitVec 16) (st u : State) (k : Nat), d ≠ 0 → k < 32 →
    (exec (.and d s t) st = .next u →
      (u.readReg d).getLsbD k = ((st.readReg s).getLsbD k && (st.readReg t).getLsbD k)) ∧
    (exec (.or d s t) st = .next u →
      (u.readReg d).getLsbD k = ((st.readReg s).getLsbD k || (st.readReg t).getLsbD k)) ∧
    (exec (.andi d s raw) st = .next u →
      (u.readReg d).getLsbD k = ((st.readReg s).getLsbD k && (raw.setWidth 32).getLsbD k)) ∧
    (exec (.ori d s raw) st = .next u →
      (u.readReg d).getLsbD k = ((st.readReg s).getLsbD k || (raw.setWidth 32).getLsbD k))) ∧
  ∀ (d s t : RegIdx) (imm : Int) (st u : State), d ≠ 0 →
    (exec (.slt d s t) st = .next u ∨ exec (.slti d s imm) st = .next u) →
    u.readReg d = 0#32 ∨ u.readReg d = 1#32

/-! ### `syscall` (spec/44_syscall.md) -/

/-- R90: service 1 emits `PrintInt(x[4])` and continues; nothing else but the pc changes. -/
def Obligations.ServiceOnePrintsTheInteger : Prop :=
  ∀ s : State, s.readReg 2 = 1#32 →
    ∃ u, exec .syscall s = .next u ∧ u.out = s.out ++ [.printInt (s.readReg 4)] ∧ u.pc = s.pc + 1#32 ∧
      (∀ r, u.readReg r = s.readReg r) ∧ u.runState = s.runState ∧ u.fault = s.fault ∧ u.imem = s.imem

/-- R91: service 10 emits nothing and halts; no register changes and no fault is recorded. -/
def Obligations.ServiceTenHalts : Prop :=
  ∀ s : State, s.readReg 2 = 10#32 →
    ∃ u, exec .syscall s = .next u ∧ u.out = s.out ∧ u.runState = .halted ∧
      (∀ r, u.readReg r = s.readReg r) ∧ u.fault = s.fault ∧ u.imem = s.imem

/-- R92: service 11 emits `PrintChar` of the low 8 bits of `x[4]` and continues. -/
def Obligations.ServiceElevenPrintsLowByte : Prop :=
  ∀ s : State, s.readReg 2 = 11#32 →
    ∃ u c, exec .syscall s = .next u ∧ u.out = s.out ++ [.printChar c] ∧ c.toNat = (s.readReg 4).toNat % 256 ∧
      u.pc = s.pc + 1#32 ∧ (∀ r, u.readReg r = s.readReg r) ∧
      u.runState = s.runState ∧ u.fault = s.fault ∧ u.imem = s.imem

/-- R93, R104: any other code, negative ones included, emits `UnknownSyscall(code)` and halts as service 10 does; it is no
fault. -/
def Obligations.UnknownServiceReportsAndHalts : Prop :=
  ∀ s : State, s.readReg 2 ≠ 1#32 → s.readReg 2 ≠ 10#32 → s.readReg 2 ≠ 11#32 →
    ∃ u, exec .syscall s = .next u ∧ u.out = s.out ++ [.unknownSyscall (s.readReg 2)] ∧ u.runState = .halted ∧
      (∀ r, u.readReg r = s.readReg r) ∧ u.fault = s.fault ∧ u.imem = s.imem

/-- R88 with the spec's decision D5 (log 18): a halting `syscall` keeps the pc at its own index, and from the state it leaves the
core takes no further step (the stop's name `halted` is the model's, log 6). -/
def Obligations.HaltingSyscallKeepsPcAndEndsTheRun : Prop :=
  ∀ s : State, s.readReg 2 ≠ 1#32 → s.readReg 2 ≠ 11#32 →
    ∃ u, exec .syscall s = .next u ∧ u.pc = s.pc ∧ u.regs = s.regs ∧ step u = .fault .halted

/-! ### The step (spec/10_state.md R24, 70 R126) -/

/-- R24, R31: when a step is possible and the word at the pc decodes to `i`, the step is `exec i` at that state: the core adds
nothing around it. -/
def Obligations.StepRunsTheDecodedInstruction : Prop :=
  ∀ (s : State) (w : Word) (i : Instr),
    s.runState = .running → s.fault = none → 0 ≤ s.pc.toInt → s.imem[s.pc.toInt.toNat]? = some w →
    decode w = .ok i → step s = exec i s

/-- R24 and R126 (D16 and log 6 for the pc below 0 and for the names of the stops; log 16 for a halted state with a fault, which
no run reaches): a step stops exactly in the terminal states, by kind, and never refuses. -/
def Obligations.StepStopsExactlyInTerminalStates : Prop :=
  ∀ s : State,
    ((∃ f, step s = .fault f) ↔
      ¬(s.runState = .running ∧ s.fault = none ∧ 0 ≤ s.pc.toInt ∧ s.pc.toInt < s.imem.length)) ∧
    (∀ r, step s ≠ .refused r) ∧
    (step s = .fault .halted ↔ s.runState = .halted) ∧
    (step s = .fault .decodeFailed ↔ s.runState = .running ∧ s.fault ≠ none) ∧
    (step s = .fault .fellOff ↔
      s.runState = .running ∧ s.fault = none ∧ (s.pc.toInt < 0 ∨ (s.imem.length : Int) ≤ s.pc.toInt))

/-- R105, R101, R60, R75: no instruction's own operation raises anything: for every instruction and every state, with operands
of any value, the meaning answers a next state, with the fault record and the program store as before. -/
def Obligations.NoInstructionIsExceptional : Prop :=
  ∀ (i : Instr) (s : State), ∃ t, exec i s = .next t ∧ t.fault = s.fault ∧ t.imem = s.imem

/-- R101, R102 as hardware state (the spec's decision D6, log 7): the step on a fetched word that does not decode records
`DecodeFailure(pc + 1, word)`, keeps every other piece of state, and no step follows. -/
def Obligations.UndecodableWordTakesDecodeFailure : Prop :=
  ∀ (s : State) (w : Word) (e : DecodeReject), s.fetch = .ok w → decode w = .error e →
    ∃ t p, step s = .next t ∧ t.fault = some (.decodeFailure p w) ∧ (p : Int) = s.pc.toInt + 1 ∧
      1 ≤ p ∧ p ≤ s.imem.length ∧
      t.regs = s.regs ∧ t.pc = s.pc ∧ t.runState = .running ∧ t.out = s.out ∧ t.imem = s.imem ∧
      step t = .fault .decodeFailed

/-! ### Whole-machine rules -/

/-- R11: register 0 reads 0 in every state, and an instruction whose destination is register 0 changes what no register
reads. -/
def Obligations.RegisterZeroIsHardwired : Prop :=
  (∀ s : State, s.readReg 0 = 0#32) ∧
  ∀ (i : Instr) (s t : State), Instr.dest i = some 0 → exec i s = .next t → ∀ r, t.readReg r = s.readReg r

/-- R24 step 6, R13: every completed step clears the slot of `x[0]`, whatever it held; the two ways a step can end early (a
halting `syscall`, a decode failure) leave it as it was. A choice of the model: that the slot is written and then cleared is one of
the two mechanisms D17 leaves to a model (log 5), seen only in states no run reaches; what a decode failure keeps is the spec's
decision D6 (log 7). -/
def Obligations.CompletedStepClearsRegisterZero : Prop :=
  ∀ s t : State, step s = .next t →
    (t.runState = .running → t.fault = none → t.regs[0] = 0#32) ∧
    (t.runState = .halted ∨ t.fault ≠ none → t.regs = s.regs)

/-- R13, R10: an instruction changes what one register at most reads, its destination; `beq`, `bne` and `syscall` none. -/
def Obligations.OnlyTheDestinationRegisterChanges : Prop :=
  ∀ (i : Instr) (s t : State) (r : RegIdx), exec i s = .next t → Instr.dest i ≠ some r → t.readReg r = s.readReg r

/-- R13: what an instruction does depends on no register but its sources (`x[4]` for `syscall` only when `x[2]` is 1 or 11):
from two states that agree on the pc and on those, it leaves the same destination value and pc, emits the same events, and halts in
both or in neither. -/
def Obligations.InstructionsReadOnlyTheirSources : Prop :=
  ∀ (i : Instr) (a b ta tb : State),
    (∀ r ∈ Instr.sources i a.serviceCode, a.readReg r = b.readReg r) → a.pc = b.pc →
    exec i a = .next ta → exec i b = .next tb →
    (∀ d, Instr.dest i = some d → ta.readReg d = tb.readReg d) ∧ ta.pc = tb.pc ∧
    (∃ es, ta.out = a.out ++ es ∧ tb.out = b.out ++ es) ∧
    (a.runState = b.runState → ta.runState = tb.runState)

/-- R16: the core goes to `Halted` only in a step of `syscall` whose code is 10 or is not one of 1, 10, 11, and does so in every
such step; a step is taken only from `Running`, so nothing in a run sets it back. -/
def Obligations.OnlyHaltingSyscallHalts : Prop :=
  ∀ s t : State, step s = .next t →
    s.runState = .running ∧
    (t.runState = .halted ↔
      s.fetch = .ok 0x0000000C#32 ∧ ((s.readReg 2).toInt = 10 ∨ (s.readReg 2).toInt ∉ [1, 10, 11]))

/-- R15 (with D4 for the width, D5 and D6 for the two cases that keep the pc; logs 4, 18, 7): in a program of at most 1000 words
the pc advances by exactly 1, by exactly `imm` on a taken branch, and not at all when a `syscall` halts or a word does not decode;
as integers, so it never wraps. -/
def Obligations.PcAdvancesExactly : Prop :=
  ∀ (s t : State) (w : Word), Memory.wf s.imem = true → s.fetch = .ok w → step s = .next t →
    t.pc.toInt = s.pc.toInt +
      (match decode w with
        | .ok (.beq rs rt imm) => if s.readReg rs = s.readReg rt then imm else 1
        | .ok (.bne rs rt imm) => if s.readReg rs ≠ s.readReg rt then imm else 1
        | .ok .syscall => if (s.readReg 2).toInt = 1 ∨ (s.readReg 2).toInt = 11 then 1 else 0
        | .ok _ => 1
        | .error _ => 0) ∧
    -32768 ≤ t.pc.toInt ∧ t.pc.toInt ≤ 33766

/-- R18 (the typed events are D11, log 11): a step removes or changes no event, and appends one at most, in a `syscall` step. -/
def Obligations.EventTraceIsAppendOnly : Prop :=
  ∀ s t : State, step s = .next t →
    t.out = s.out ∨ (s.fetch = .ok 0x0000000C#32 ∧ ∃ e, t.out = s.out ++ [e])

/-- R30, R31: no step writes the program store, so along any number of steps every index gives the same word, and the trace only
grows at its end (R18). -/
def Obligations.RunsNeverChangeTheProgram : Prop :=
  ∀ (n : Nat) (s t : State), Host.Core.run Sys2Proof.core n s = .next t →
    (∀ k, Memory.word? t.imem k = Memory.word? s.imem k) ∧ t.imem.length = s.imem.length ∧ ∃ es, t.out = s.out ++ es

/-! ### Invariants -/

/-- R26, R120 (the spec's decision D3, log 3, for registers 1 to 31; log 2 for the store): what reset leaves, from any state, and
in the model's own reset state, where no program is loaded. -/
def Obligations.ResetGivesTheInitialState : Prop :=
  (∀ s : State, (∀ r, s.resetCore.readReg r = 0#32) ∧ s.resetCore.pc = 0#32 ∧ s.resetCore.runState = .running ∧
    s.resetCore.fault = none ∧ s.resetCore.out = [] ∧ s.resetCore.imem = s.imem) ∧
  State.reset.resetCore = State.reset ∧ State.reset.imem = [] ∧ step State.reset = .fault .fellOff

/-- The invariant `State.Inv` (R11, R15, R16, R17, R30, R127; D5 and D6, logs 18 and 7) holds at reset and of every program the
loader accepts. -/
def Obligations.ResetAndBootMeetTheInvariant : Prop :=
  State.reset.Inv ∧ ∀ (program : List Word) (s : State), boot program = .ok s → s.Inv

/-- Every step keeps `State.Inv`, from every state that has it: the store's bound, the zero slot, the pc's range, how a halted core
came to halt, and what a recorded fault says (R11, R15, R16, R17, R30, R127; D5 and D6, logs 18 and 7). -/
def Obligations.EveryStepKeepsTheInvariant : Prop :=
  ∀ s t : State, s.Inv → step s = .next t → t.Inv

/-- R112 (D7, log 14): from any state whose program decodes word by word and that records no fault, no run of any length ends in
`DecodeFailure` or records one. -/
def Obligations.DecodableProgramsNeverFault : Prop :=
  ∀ (fuel : Nat) (s : State), Memory.AllDecodable s.imem → s.fault = none →
    (∀ c t, runFrom fuel s = .ended c t → t.fault = none ∧ ∀ p w, c ≠ .decodeFailure p w) ∧
    ∀ t, runFrom fuel s = .outOfFuel t → t.fault = none

/-! ### Around the run (spec/60_exceptions.md R103, R112; 70 R126 to R133) -/

/-- R103, R122 (D2, log 9, for 1000): a program boots exactly when it has at most 1000 words, and then the core is in its reset
state with that program. -/
def Obligations.BootAcceptsUpToCapacity : Prop :=
  ∀ program : List Word,
    (program.length ≤ 1000 → ∃ s, boot program = .ok s ∧ s.imem = program ∧ s = s.resetCore) ∧
    (1001 ≤ program.length → boot program = .error .loadOverflow)

/-- R112, R58 (D7, log 14): the listing pass aborts exactly when some word does not decode, and then reports the first such word
with its 1-based position. -/
def Obligations.ListingPassFindsTheFirstBadWord : Prop :=
  ∀ program : List Word,
    ((listingFrom 0 program).2 = none ↔ Memory.AllDecodable program) ∧
    ∀ p w, (listingFrom 0 program).2 = some (.decodeFailure p w) →
      1 ≤ p ∧ program[p - 1]? = some w ∧ decodable w = false ∧ Memory.AllDecodable (program.take (p - 1))

/-- R126, R127 (D16, log 6): a state has an end cause exactly when no step is possible; and in a state of the invariant the cause
tells how the run ended: `Exit` only with code 10, an unknown code only with its event last in the trace. -/
def Obligations.EndCauseTellsHowTheRunEnded : Prop :=
  ∀ s : State,
    (s.endCause = none ↔ ∃ t, step s = .next t) ∧
    (s.Inv → s.endCause = some .exit → s.runState = .halted ∧ (s.readReg 2).toInt = 10) ∧
    (s.Inv → ∀ c, s.endCause = some (.unknownSyscall c) →
      s.runState = .halted ∧ c = s.readReg 2 ∧ c.toInt ∉ [1, 10, 11] ∧ s.out.getLast? = some (.unknownSyscall c)) ∧
    (s.Inv → ∀ p w, s.endCause = some (.decodeFailure p w) → s.FaultIsOf p w) ∧
    (s.Inv → s.endCause = some .fellOff → s.runState = .running ∧ s.fault = none ∧
      (s.pc.toInt < 0 ∨ (s.imem.length : Int) ≤ s.pc.toInt))

/-- R130: the register listing holds exactly the nonzero registers with their signed values, in ascending order, register 0
never. (That it is also made after a halt is D15, log 13, and no part of this statement.) -/
def Obligations.FinalListingIsTheNonzeroRegisters : Prop :=
  ∀ s : State,
    (∀ i v, (i, v) ∈ s.finalRegisters ↔ s.readReg i ≠ 0#32 ∧ v = (s.readReg i).toInt) ∧
    s.finalRegisters.Pairwise (fun a b => a.1 < b.1) ∧ ∀ v, (0, v) ∉ s.finalRegisters

/-- R133, R70: where the word at the pc is a taken branch with `imm = 0` (`beq $0,$0,0` among them), no number of steps reaches a
terminal state, and no result comes under any fuel. -/
def Obligations.BranchToItselfNeverEnds : Prop :=
  ∀ (n : Nat) (s : State) (w : Word) (rs rt : RegIdx), s.fetch = .ok w →
    (decode w = .ok (.beq rs rt 0) ∧ s.readReg rs = s.readReg rt ∨
      decode w = .ok (.bne rs rt 0) ∧ s.readReg rs ≠ s.readReg rt) →
    (∃ t, Host.Core.run Sys2Proof.core n s = .next t ∧ t.pc = s.pc ∧ t.fetch = s.fetch ∧
      ∀ r, t.readReg r = s.readReg r) ∧
    ∃ t, runFrom n s = .outOfFuel t

/-- R94 (D11, logs 11 and 12): the output text is the events' texts one after another, with nothing before, between or after
them; an integer's text is its decimal numeral, with a leading `-` for a negative value (the spec's reading, D11), and a
character's is the one character with that code (the Unicode one, for codes 128 to 255 the model's choice, log 12). The
diagnostic's wording is open. -/
def Obligations.OutputTextAddsNothing : Prop :=
  outputText [] = "" ∧
  (∀ e : Event, outputText [e] = eventText e) ∧
  (∀ before after : List Event, outputText (before ++ after) = outputText before ++ outputText after) ∧
  (∀ v : Word, 0 ≤ v.toInt → eventText (.printInt v) = toString v.toInt.natAbs) ∧
  (∀ v : Word, v.toInt < 0 → eventText (.printInt v) = "-" ++ toString v.toInt.natAbs) ∧
  ∀ c : Byte, ∃ char : Char, eventText (.printChar c) = String.singleton char ∧ char.toNat = c.toNat

/-- The model's own load of one instruction (log 2): the next step fetches and runs exactly it, whatever the state was; the
registers and the trace are kept, and a store in its canonical form stays so. -/
def Obligations.PlacedWordIsTheNextStep : Prop :=
  ∀ (s : State) (w : Word) (i : Instr), decode w = .ok i →
    (s.withFetchWord 32 w.toNat).fetch = .ok w ∧
    step (s.withFetchWord 32 w.toNat) = exec i (s.withFetchWord 32 w.toNat) ∧
    (s.withFetchWord 32 w.toNat).regs = s.regs ∧ (s.withFetchWord 32 w.toNat).out = s.out ∧
    (Memory.wf s.imem = true → Memory.wf (s.withFetchWord 32 w.toNat).imem = true)
end

