-- ==== Sys2Proof/Laws/Arithmetic.lean ====
section
/-! SUPPORT. The exact-then-narrow arithmetic of R67 as bit-vector arithmetic, and how far a narrowed value is from the exact
one. -/

namespace Sys2Proof.Machine

theorem toInt_toI32 (v : Int) : (toI32 v).toInt = v.bmod (2 ^ 32) := BitVec.toInt_ofInt v

/-- R67: the result is the exact one whenever the exact one fits. -/
theorem toI32_exact {v : Int} (lo : -2147483648 ≤ v) (hi : v ≤ 2147483647) : (toI32 v).toInt = v := by
  rw [toInt_toI32, Int.bmod_eq_of_le] <;> omega

/-- R67: otherwise it differs from the exact one by a multiple of 2^32. -/
theorem toI32_multiple (v : Int) : ∃ k : Int, (toI32 v).toInt = v + k * 4294967296 := by
  refine ⟨-v.bdiv (2 ^ 32), ?_⟩
  rw [toInt_toI32, Int.bmod_eq_self_sub_bdiv_mul]
  push_cast
  ring

@[simp] theorem toI32_toInt (a : Word) : toI32 a.toInt = a := BitVec.ofInt_toInt

theorem aluAdd_eq (a b : Word) : aluAdd a b = a + b := by
  simp [aluAdd, toI32, BitVec.ofInt_add, BitVec.ofInt_toInt]

theorem aluMul_eq (a b : Word) : aluMul a b = a * b := by
  simp [aluMul, toI32, BitVec.ofInt_mul, BitVec.ofInt_toInt]

theorem aluSub_eq (a b : Word) : aluSub a b = a - b := by
  rw [aluSub, toI32, Int.sub_eq_add_neg, BitVec.ofInt_add, BitVec.ofInt_neg, BitVec.ofInt_toInt, BitVec.ofInt_toInt,
    BitVec.sub_eq_add_neg]

theorem boolWord_cases (c : Bool) : boolWord c = 0#32 ∨ boolWord c = 1#32 := by
  cases c <;> simp [boolWord]

end Sys2Proof.Machine
end

