-- ==== Sys2Proof/Laws/Encoding.lean ====
section
/-! SUPPORT. The fields of a packed word, and the fields of a word that matches a row of the opcode table. -/

namespace Sys2Proof

open BitVec (extractLsb'_append_eq_of_le extractLsb'_append_eq_of_add_le extractLsb'_append_eq_left
  extractLsb'_append_eq_right)

/-! ### Fields of packed words (R50) -/

theorem opcodeField_packImm (op : BitVec 6) (s t : BitVec 5) (raw : BitVec 16) :
    opcodeField (packImm op s t raw) = op := by
  have h : (op ++ s ++ t ++ raw).extractLsb' 26 6 = op := by
    rw [extractLsb'_append_eq_of_le (by decide), extractLsb'_append_eq_of_le (by decide)]
    exact extractLsb'_append_eq_left
  exact h

theorem sField_packImm (op : BitVec 6) (s t : BitVec 5) (raw : BitVec 16) : sField (packImm op s t raw) = s.toFin := by
  have h : (op ++ s ++ t ++ raw).extractLsb' 21 5 = s := by
    rw [extractLsb'_append_eq_of_le (by decide), extractLsb'_append_eq_of_le (by decide)]
    exact extractLsb'_append_eq_right
  exact congrArg BitVec.toFin h

theorem tField_packImm (op : BitVec 6) (s t : BitVec 5) (raw : BitVec 16) : tField (packImm op s t raw) = t.toFin := by
  have h : (op ++ s ++ t ++ raw).extractLsb' 16 5 = t := by
    rw [extractLsb'_append_eq_of_le (by decide)]
    exact extractLsb'_append_eq_right
  exact congrArg BitVec.toFin h

theorem rawImmField_packImm (op : BitVec 6) (s t : BitVec 5) (raw : BitVec 16) :
    rawImmField (packImm op s t raw) = raw :=
  extractLsb'_append_eq_right (a := op ++ s ++ t) (b := raw)

theorem dField_packReg (op : BitVec 6) (d s t : RegIdx) (funct : BitVec 6) : dField (packReg op d s t funct) = d := by
  have h : (op ++ regBits s ++ regBits t ++ (regBits d ++ 0#5 ++ funct)).extractLsb' 11 5 = regBits d := by
    rw [extractLsb'_append_eq_of_add_le (by decide), extractLsb'_append_eq_of_le (by decide)]
    exact extractLsb'_append_eq_left
  exact congrArg BitVec.toFin h

theorem functField_packReg (op : BitVec 6) (d s t : RegIdx) (funct : BitVec 6) :
    functField (packReg op d s t funct) = funct := by
  have h : (op ++ regBits s ++ regBits t ++ (regBits d ++ 0#5 ++ funct)).extractLsb' 0 6 = funct := by
    rw [extractLsb'_append_eq_of_add_le (by decide)]
    exact extractLsb'_append_eq_right
  exact h

theorem opcodeField_packReg (op : BitVec 6) (d s t : RegIdx) (funct : BitVec 6) :
    opcodeField (packReg op d s t funct) = op := opcodeField_packImm _ _ _ _

theorem sField_packReg (op : BitVec 6) (d s t : RegIdx) (funct : BitVec 6) : sField (packReg op d s t funct) = s :=
  sField_packImm _ _ _ _

theorem tField_packReg (op : BitVec 6) (d s t : RegIdx) (funct : BitVec 6) : tField (packReg op d s t funct) = t :=
  tField_packImm _ _ _ _

/-! ### The signed immediate (R44) -/

/-- R44: `imm = raw_imm` below 32768, `raw_imm - 65536` from there on. -/
theorem sext16_eq (raw : BitVec 16) :
    sext16 raw = if 32768 ≤ raw.toNat then (raw.toNat : Int) - 65536 else raw.toNat := rfl

theorem sext16_range (raw : BitVec 16) : -32768 ≤ sext16 raw ∧ sext16 raw ≤ 32767 := by
  have := raw.isLt
  rw [sext16_eq]
  split <;> omega

theorem sext16_immBits {imm : Int} (h : immInRange imm = true) : sext16 (immBits imm) = imm := by
  simp only [immInRange, Bool.and_eq_true, decide_eq_true_eq] at h
  have hn : ((immBits imm).toNat : Int) = imm % 65536 := by
    simp [immBits, BitVec.toNat_ofInt]
    omega
  rw [sext16_eq]
  split <;> omega

/-! ### Words that match a row of the opcode table -/

/-- Bits 31:26 of a word, under a mask that holds them all. -/
theorem opcodeField_of_mask {w m v : Word} (h : w &&& m = v) (hm : opcodeField m = 0x3F#6) :
    opcodeField w = opcodeField v := by
  subst h
  simp only [opcodeField, BitVec.extractLsb'_and] at hm ⊢
  rw [hm]
  exact (BitVec.and_allOnes (x := w.extractLsb' 26 6)).symm

/-- Bits 5:0 of a word, under a mask that holds them all. -/
theorem functField_of_mask {w m v : Word} (h : w &&& m = v) (hm : functField m = 0x3F#6) :
    functField w = functField v := by
  subst h
  simp only [functField, BitVec.extractLsb'_and] at hm ⊢
  rw [hm]
  exact (BitVec.and_allOnes (x := w.extractLsb' 0 6)).symm

/-- Two words that agree under a mask agree in every field the mask holds whole. R51. -/
theorem extractLsb'_of_mask {w v m : Word} {a n : Nat} (h : v &&& m = w &&& m)
    (hm : m.extractLsb' a n = BitVec.allOnes n) : v.extractLsb' a n = w.extractLsb' a n := by
  have := congrArg (BitVec.extractLsb' a n) h
  simpa [BitVec.extractLsb'_and, hm] using this

theorem opcodeField_syscallWord : opcodeField syscallWord = 0#6 := by decide

theorem functField_syscallWord : functField syscallWord = 0x0C#6 := by decide

/-- A word with another opcode goes to the opcode table. R45 step 3. -/
theorem decode_of_opcode {w : Word} (h : opcodeField w ≠ 0#6) : decode w = decodeOpcode w := by
  have hw : w ≠ syscallWord := fun e => h (e ▸ opcodeField_syscallWord)
  simp [decode, hw, h]

/-- An opcode 0 word with another `funct` than `syscall`'s goes to the `funct` table. R45 step 2. -/
theorem decode_of_funct {w : Word} (h : opcodeField w = 0#6) (hf : functField w ≠ 0x0C#6) :
    decode w = decodeFunct w := by
  have hw : w ≠ syscallWord := fun e => hf (e ▸ functField_syscallWord)
  simp [decode, hw, h]

theorem decode_syscallWord : decode syscallWord = .ok .syscall := by decide

/-- Everything the decoder can answer, with the test that selects it and the fields it takes. R45 to R48. -/
theorem decode_cases {w : Word} {i : Instr} (h : decode w = .ok i) :
    (w = syscallWord ∧ i = .syscall) ∨
    (opcodeField w = 0#6 ∧ (
        (functField w = 0x20#6 ∧ i = .add (dField w) (sField w) (tField w)) ∨
        (functField w = 0x22#6 ∧ i = .sub (dField w) (sField w) (tField w)) ∨
        (functField w = 0x24#6 ∧ i = .and (dField w) (sField w) (tField w)) ∨
        (functField w = 0x25#6 ∧ i = .or (dField w) (sField w) (tField w)) ∨
        (functField w = 0x2A#6 ∧ i = .slt (dField w) (sField w) (tField w)))) ∨
    (opcodeField w = 0x1C#6 ∧ i = .mul (dField w) (sField w) (tField w)) ∨
    (opcodeField w = 0x04#6 ∧ i = .beq (sField w) (tField w) (immField w)) ∨
    (opcodeField w = 0x05#6 ∧ i = .bne (sField w) (tField w) (immField w)) ∨
    (opcodeField w = 0x08#6 ∧ i = .addi (tField w) (sField w) (immField w)) ∨
    (opcodeField w = 0x0A#6 ∧ i = .slti (tField w) (sField w) (immField w)) ∨
    (opcodeField w = 0x0C#6 ∧ i = .andi (tField w) (sField w) (rawImmField w)) ∨
    (opcodeField w = 0x0D#6 ∧ i = .ori (tField w) (sField w) (rawImmField w)) ∨
    (opcodeField w = 0x0F#6 ∧ i = .lui (tField w) (rawImmField w)) := by
  simp only [decode, decodeFunct, decodeOpcode] at h
  split_ifs at h <;> first | (cases h; simp_all)

/-! ### A word is its fields (R50) -/

/-- A word is its opcode, `s`, `t` and immediate fields. R50. -/
theorem packImm_fields (w : Word) : packImm (opcodeField w) (regBits (sField w)) (regBits (tField w)) (rawImmField w) = w := by
  have h : w.extractLsb' 26 6 ++ w.extractLsb' 21 5 ++ w.extractLsb' 16 5 ++ w.extractLsb' 0 16 = w := by
    apply BitVec.eq_of_getLsbD_eq
    intro k hk
    simp only [BitVec.getLsbD_append, BitVec.getLsbD_extractLsb']
    by_cases h1 : k < 16
    · simp [h1]
    · by_cases h2 : k < 21
      · have a : k - 16 < 5 := by omega
        have b : 16 + (k - 16) = k := by omega
        simp [h1, a, b]
      · by_cases h3 : k < 26
        · have a : ¬ k - 16 < 5 := by omega
          have b : k - 16 - 5 < 5 := by omega
          have c : 21 + (k - 16 - 5) = k := by omega
          simp [h1, a, b, c]
        · have a : ¬ k - 16 < 5 := by omega
          have b : ¬ k - 16 - 5 < 5 := by omega
          have b2 : k - 16 - 5 - 5 < 6 := by omega
          have c : 26 + (k - 16 - 5 - 5) = k := by omega
          simp [h1, a, b, c, b2]
  exact h

/-- The immediate field is `d`, bits 10:6 and `funct`. R44, R50. -/
theorem rawImmField_eq_append (w : Word) : regBits (dField w) ++ w.extractLsb' 6 5 ++ functField w = rawImmField w := by
  have h : w.extractLsb' 11 5 ++ w.extractLsb' 6 5 ++ w.extractLsb' 0 6 = w.extractLsb' 0 16 := by
    apply BitVec.eq_of_getLsbD_eq
    intro k hk
    simp only [BitVec.getLsbD_append, BitVec.getLsbD_extractLsb']
    by_cases h1 : k < 6
    · have : k < 16 := by omega
      simp [h1, this]
    · by_cases h2 : k < 11
      · have a : k - 6 < 5 := by omega
        have b : 6 + (k - 6) = k := by omega
        have : k < 16 := by omega
        simp [h1, a, b, this]
      · have a : ¬ k - 6 < 5 := by omega
        have b : k - 6 - 5 < 5 := by omega
        have : k < 16 := by omega
        have c : 11 + (k - 6 - 5) = k := by omega
        simp [h1, a, b, c, this]
  exact h

end Sys2Proof
end

