-- ==== Sys2Proof/Laws/HostText.lean ====
section
/-! SUPPORT. What the host's text keeps of the spec's formats whatever its open constants are (spec/70_reset_and_hazards.md
R130). -/

namespace Sys2Proof.Machine

/-- A register index has one decimal digit below 10 and two from there on. R12. -/
theorem registerNumeral_length (i : RegIdx) : (toString i.val).length = if i.val < 10 then 1 else 2 := by
  revert i
  decide

/-- The index of a register line has width 2, for every register and whichever character pads it. R130. -/
theorem paddedIndex_length (i : RegIdx) : (paddedIndex i).length = 2 := by
  have numeral := registerNumeral_length i
  unfold paddedIndex
  split
  · rw [String.length_append, numeral, String.length_singleton, if_pos ‹_›]
  · rw [numeral, if_neg ‹_›]

end Sys2Proof.Machine
end

