-- ==== Sys2Proof/Laws/State.lean ====
section
/-! SUPPORT. One lemma per field of State per update, true by rfl, so that no proof unfolds a record update. -/

namespace Sys2Proof.Machine.State

variable (s : State)

@[simp] theorem writeReg_regs (i : RegIdx) (v : Word) : (s.writeReg i v).regs = s.regs.set i v := rfl
@[simp] theorem writeReg_pc (i : RegIdx) (v : Word) : (s.writeReg i v).pc = s.pc := rfl
@[simp] theorem writeReg_runState (i : RegIdx) (v : Word) : (s.writeReg i v).runState = s.runState := rfl
@[simp] theorem writeReg_fault (i : RegIdx) (v : Word) : (s.writeReg i v).fault = s.fault := rfl
@[simp] theorem writeReg_out (i : RegIdx) (v : Word) : (s.writeReg i v).out = s.out := rfl
@[simp] theorem writeReg_imem (i : RegIdx) (v : Word) : (s.writeReg i v).imem = s.imem := rfl

@[simp] theorem clearZero_regs : s.clearZero.regs = s.regs.set 0 0#32 := rfl
@[simp] theorem clearZero_pc : s.clearZero.pc = s.pc := rfl
@[simp] theorem clearZero_runState : s.clearZero.runState = s.runState := rfl
@[simp] theorem clearZero_fault : s.clearZero.fault = s.fault := rfl
@[simp] theorem clearZero_out : s.clearZero.out = s.out := rfl
@[simp] theorem clearZero_imem : s.clearZero.imem = s.imem := rfl

@[simp] theorem setPc_regs (next : PcIndex) : (s.setPc next).regs = s.regs := rfl
@[simp] theorem setPc_pc (next : PcIndex) : (s.setPc next).pc = next := rfl
@[simp] theorem setPc_runState (next : PcIndex) : (s.setPc next).runState = s.runState := rfl
@[simp] theorem setPc_fault (next : PcIndex) : (s.setPc next).fault = s.fault := rfl
@[simp] theorem setPc_out (next : PcIndex) : (s.setPc next).out = s.out := rfl
@[simp] theorem setPc_imem (next : PcIndex) : (s.setPc next).imem = s.imem := rfl

@[simp] theorem emit_regs (e : Event) : (s.emit e).regs = s.regs := rfl
@[simp] theorem emit_pc (e : Event) : (s.emit e).pc = s.pc := rfl
@[simp] theorem emit_runState (e : Event) : (s.emit e).runState = s.runState := rfl
@[simp] theorem emit_fault (e : Event) : (s.emit e).fault = s.fault := rfl
@[simp] theorem emit_out (e : Event) : (s.emit e).out = s.out ++ [e] := rfl
@[simp] theorem emit_imem (e : Event) : (s.emit e).imem = s.imem := rfl

@[simp] theorem halt_regs : s.halt.regs = s.regs := rfl
@[simp] theorem halt_pc : s.halt.pc = s.pc := rfl
@[simp] theorem halt_runState : s.halt.runState = .halted := rfl
@[simp] theorem halt_fault : s.halt.fault = s.fault := rfl
@[simp] theorem halt_out : s.halt.out = s.out := rfl
@[simp] theorem halt_imem : s.halt.imem = s.imem := rfl

@[simp] theorem raiseDecodeFailure_regs (w : Word) : (s.raiseDecodeFailure w).regs = s.regs := rfl
@[simp] theorem raiseDecodeFailure_pc (w : Word) : (s.raiseDecodeFailure w).pc = s.pc := rfl
@[simp] theorem raiseDecodeFailure_runState (w : Word) : (s.raiseDecodeFailure w).runState = s.runState := rfl
@[simp] theorem raiseDecodeFailure_fault (w : Word) : (s.raiseDecodeFailure w).fault = some (.decodeFailure s.position w) := rfl
@[simp] theorem raiseDecodeFailure_out (w : Word) : (s.raiseDecodeFailure w).out = s.out := rfl
@[simp] theorem raiseDecodeFailure_imem (w : Word) : (s.raiseDecodeFailure w).imem = s.imem := rfl

end Sys2Proof.Machine.State
end

