-- ==== Sys2Proof/Laws/Registers.lean ====
section
/-! SUPPORT. What reading a register gives after each update, and what the operations that end a step do. -/

namespace Sys2Proof.Machine.State

variable (s : State)

@[simp] theorem readReg_zero : s.readReg 0 = 0#32 := by simp [readReg]

theorem readReg_writeReg (d i : RegIdx) (v : Word) :
    (s.writeReg d v).readReg i = if i = d ∧ i ≠ 0 then v else s.readReg i := by
  by_cases h0 : i = 0
  · simp [readReg, h0]
  · by_cases hd : i = d
    · subst hd
      simp [readReg, h0]
    · have hv : (d : Nat) ≠ i := fun h => hd (Fin.ext h.symm)
      simp [readReg, h0, hd, Vector.getElem_set_ne, hv]

@[simp] theorem readReg_clearZero (i : RegIdx) : s.clearZero.readReg i = s.readReg i := by
  by_cases h0 : i = 0
  · simp [readReg, h0]
  · have hv : (0 : Nat) ≠ i := fun h => h0 (Fin.ext h.symm)
    simp [readReg, h0, Vector.getElem_set_ne, hv]

@[simp] theorem readReg_setPc (n : PcIndex) (i : RegIdx) : (s.setPc n).readReg i = s.readReg i := rfl

@[simp] theorem readReg_emit (e : Event) (i : RegIdx) : (s.emit e).readReg i = s.readReg i := rfl

@[simp] theorem readReg_halt (i : RegIdx) : s.halt.readReg i = s.readReg i := rfl

@[simp] theorem readReg_raiseDecodeFailure (w : Word) (i : RegIdx) :
    (s.raiseDecodeFailure w).readReg i = s.readReg i := rfl

theorem clearZero_slot : s.clearZero.regs[0] = 0#32 := by simp

/-! ### The operations that end a step -/

@[simp] theorem finish_pc (n : PcIndex) : (s.finish n).pc = n := rfl
@[simp] theorem finish_runState (n : PcIndex) : (s.finish n).runState = s.runState := rfl
@[simp] theorem finish_fault (n : PcIndex) : (s.finish n).fault = s.fault := rfl
@[simp] theorem finish_out (n : PcIndex) : (s.finish n).out = s.out := rfl
@[simp] theorem finish_imem (n : PcIndex) : (s.finish n).imem = s.imem := rfl
@[simp] theorem finish_slot (n : PcIndex) : (s.finish n).regs[0] = 0#32 := clearZero_slot s

@[simp] theorem readReg_finish (n : PcIndex) (i : RegIdx) : (s.finish n).readReg i = s.readReg i := by
  simp [finish]

@[simp] theorem retire_pc (d : RegIdx) (v : Word) : (s.retire d v).pc = s.pc + 1#32 := rfl
@[simp] theorem retire_runState (d : RegIdx) (v : Word) : (s.retire d v).runState = s.runState := rfl
@[simp] theorem retire_fault (d : RegIdx) (v : Word) : (s.retire d v).fault = s.fault := rfl
@[simp] theorem retire_out (d : RegIdx) (v : Word) : (s.retire d v).out = s.out := rfl
@[simp] theorem retire_imem (d : RegIdx) (v : Word) : (s.retire d v).imem = s.imem := rfl
@[simp] theorem retire_slot (d : RegIdx) (v : Word) : (s.retire d v).regs[0] = 0#32 := clearZero_slot _

theorem readReg_retire (d i : RegIdx) (v : Word) :
    (s.retire d v).readReg i = if i = d ∧ i ≠ 0 then v else s.readReg i := by
  simp [retire, readReg_writeReg]

@[simp] theorem branch_pc (c : Bool) (imm : Int) : (s.branch c imm).pc = s.branchPc c imm := rfl
@[simp] theorem branch_runState (c : Bool) (imm : Int) : (s.branch c imm).runState = s.runState := rfl
@[simp] theorem branch_fault (c : Bool) (imm : Int) : (s.branch c imm).fault = s.fault := rfl
@[simp] theorem branch_out (c : Bool) (imm : Int) : (s.branch c imm).out = s.out := rfl
@[simp] theorem branch_imem (c : Bool) (imm : Int) : (s.branch c imm).imem = s.imem := rfl
@[simp] theorem branch_slot (c : Bool) (imm : Int) : (s.branch c imm).regs[0] = 0#32 := finish_slot s _

@[simp] theorem readReg_branch (c : Bool) (imm : Int) (i : RegIdx) : (s.branch c imm).readReg i = s.readReg i :=
  readReg_finish s _ i

end Sys2Proof.Machine.State
end

