-- ==== Sys2Proof/Laws/Operations.lean ====
section
/-! SUPPORT. For each shared operation that can end in more than one way, everything it can do: the service handler (R89), the
fetch (R24, R126), the program store (R30, R31). -/

namespace Sys2Proof.Machine

/-! ### The service handler (R89) -/

/-- Everything `SyscallService()` can do. R90 to R93. -/
theorem syscallService_cases (s : State) :
    (s.serviceCode.toInt = 1 ∧ s.syscallService = (s.emit (.printInt s.serviceArg), .continue)) ∨
    (s.serviceCode.toInt = 10 ∧ s.syscallService = (s, .halt)) ∨
    (s.serviceCode.toInt = 11 ∧ s.syscallService = (s.emit (.printChar (s.serviceArg.setWidth 8)), .continue)) ∨
    (s.serviceCode.toInt ≠ 1 ∧ s.serviceCode.toInt ≠ 10 ∧ s.serviceCode.toInt ≠ 11 ∧
      s.syscallService = (s.emit (.unknownSyscall s.serviceCode), .halt)) := by
  by_cases h1 : s.serviceCode.toInt = 1
  · exact .inl ⟨h1, by simp [State.syscallService, h1]⟩
  by_cases h10 : s.serviceCode.toInt = 10
  · exact .inr (.inl ⟨h10, by simp [State.syscallService, h10]⟩)
  by_cases h11 : s.serviceCode.toInt = 11
  · exact .inr (.inr (.inl ⟨h11, by simp [State.syscallService, h11]⟩))
  · exact .inr (.inr (.inr ⟨h1, h10, h11, by simp [State.syscallService, h1, h10, h11]⟩))

/-! ### The program store (R30, R31) -/

/-- The form of the store at the capacity of Config. R30. -/
theorem Memory.wf_iff (m : Memory) : Memory.wf m = true ↔ m.length ≤ 1000 := decide_eq_true_iff

/-- The store at reset has the form. R26, R30. -/
theorem Memory.wf_reset : Memory.wf State.reset.imem = true := by decide

/-- A word is read exactly at the indexes of the program. R31, R37. -/
theorem Memory.word?_eq_none_iff (m : Memory) (i : Int) :
    Memory.word? m i = none ↔ i < 0 ∨ (m.length : Int) ≤ i := by
  by_cases h : 0 ≤ i
  · simp only [Memory.word?, h, if_true, List.getElem?_eq_none_iff]
    omega
  · simp [Memory.word?, h]
    omega

theorem Memory.word?_nat (m : Memory) (k : Nat) : Memory.word? m k = m[k]? := by simp [Memory.word?]

theorem Memory.mem_of_word? {m : Memory} {i : Int} {w : Word} (h : Memory.word? m i = some w) : w ∈ m := by
  unfold Memory.word? at h
  split at h
  · exact List.mem_of_getElem? h
  · cases h

theorem Memory.word?_range {m : Memory} {i : Int} {w : Word} (h : Memory.word? m i = some w) :
    0 ≤ i ∧ i < (m.length : Int) := by
  by_contra hn
  have : Memory.word? m i = none := (Memory.word?_eq_none_iff m i).mpr (by omega)
  simp [this] at h

theorem Memory.getElem?_place (m : Memory) (k : Nat) (w : Word) : (Memory.place m k w)[k]? = some w := by
  induction m, k, w using Memory.place.induct <;> simp_all [Memory.place]

theorem Memory.length_place (m : Memory) (k : Nat) (w : Word) :
    (Memory.place m k w).length = max m.length (k + 1) := by
  induction m, k, w using Memory.place.induct <;> simp_all [Memory.place]

/-- The one operation that writes the store keeps its form, at every index the store has room for. R30; log 2. -/
theorem Memory.wf_place {m : Memory} (h : Memory.wf m = true) {k : Nat} (hk : k < Config.programMax) (w : Word) :
    Memory.wf (Memory.place m k w) = true := by
  simp only [Memory.wf, decide_eq_true_eq, Memory.length_place] at h ⊢
  omega

/-! ### The fetch (R24, R31, R126) -/

/-- Everything the fetch can do. -/
theorem State.fetch_cases (s : State) :
    (s.runState = .halted ∧ s.fetch = .error .halted) ∨
    (s.runState = .running ∧ (∃ r, s.fault = some r) ∧ s.fetch = .error .decodeFailed) ∨
    (s.runState = .running ∧ s.fault = none ∧ Memory.word? s.imem s.pc.toInt = none ∧ s.fetch = .error .fellOff) ∨
    (s.runState = .running ∧ s.fault = none ∧
      ∃ w, Memory.word? s.imem s.pc.toInt = some w ∧ s.fetch = .ok w) := by
  unfold State.fetch
  cases hr : s.runState <;> cases hf : s.fault <;> simp
  cases Memory.word? s.imem s.pc.toInt <;> simp

theorem State.fetch_ok_iff {s : State} {w : Word} :
    s.fetch = .ok w ↔ s.runState = .running ∧ s.fault = none ∧ Memory.word? s.imem s.pc.toInt = some w := by
  constructor
  · intro h
    obtain ⟨-, hs⟩ | ⟨-, -, hs⟩ | ⟨-, -, -, hs⟩ | ⟨hr, hf, v, hv, hs⟩ := s.fetch_cases
    all_goals rw [hs] at h
    · cases h
    · cases h
    · cases h
    · cases h
      exact ⟨hr, hf, hv⟩
  · rintro ⟨hr, hf, hw⟩
    simp [State.fetch, hr, hf, hw]

end Sys2Proof.Machine
end

