-- ==== Sys2Proof/Laws/PerInstr.lean ====
section
/-! SUPPORT. Statements about an instruction as syntax, one lemma per constructor. Family RoundTrip: `Decode(Encode(i)) = i`
(R55). -/

namespace Sys2Proof.Laws.RoundTrip

/-- Decoding the canonical word of a well-formed instruction gives it back. R55. -/
def Statement (i : Instr) : Prop := i.wf = true → decode (encode i) = .ok i

/-- A packed format R word goes to the `funct` table. -/
theorem decode_packReg_zero (d s t : RegIdx) {funct : BitVec 6} (h : funct ≠ 0x0C#6) :
    decode (packReg 0#6 d s t funct) = decodeFunct (packReg 0#6 d s t funct) :=
  decode_of_funct (opcodeField_packReg _ _ _ _ _) (by rwa [functField_packReg])

/-- A packed word with another opcode goes to the opcode table. -/
theorem decode_packImm_nonzero {op : BitVec 6} (s t : BitVec 5) (raw : BitVec 16) (h : op ≠ 0#6) :
    decode (packImm op s t raw) = decodeOpcode (packImm op s t raw) :=
  decode_of_opcode (by rwa [opcodeField_packImm])

theorem syscall : Statement .syscall := fun _ => decode_syscallWord

theorem add (d s t : RegIdx) : Statement (.add d s t) := by
  intro _
  rw [encode, decode_packReg_zero _ _ _ (by decide)]
  simp [decodeFunct, functField_packReg, dField_packReg, sField_packReg, tField_packReg]

theorem sub (d s t : RegIdx) : Statement (.sub d s t) := by
  intro _
  rw [encode, decode_packReg_zero _ _ _ (by decide)]
  simp [decodeFunct, functField_packReg, dField_packReg, sField_packReg, tField_packReg]

theorem and (d s t : RegIdx) : Statement (.and d s t) := by
  intro _
  rw [encode, decode_packReg_zero _ _ _ (by decide)]
  simp [decodeFunct, functField_packReg, dField_packReg, sField_packReg, tField_packReg]

theorem or (d s t : RegIdx) : Statement (.or d s t) := by
  intro _
  rw [encode, decode_packReg_zero _ _ _ (by decide)]
  simp [decodeFunct, functField_packReg, dField_packReg, sField_packReg, tField_packReg]

theorem slt (d s t : RegIdx) : Statement (.slt d s t) := by
  intro _
  rw [encode, decode_packReg_zero _ _ _ (by decide)]
  simp [decodeFunct, functField_packReg, dField_packReg, sField_packReg, tField_packReg]

theorem mul (d s t : RegIdx) : Statement (.mul d s t) := by
  intro _
  rw [encode, decode_of_opcode (by rw [opcodeField_packReg]; decide)]
  simp [decodeOpcode, opcodeField_packReg, dField_packReg, sField_packReg, tField_packReg]

theorem beq (s t : RegIdx) (imm : Int) : Statement (.beq s t imm) := by
  intro h
  rw [encode, decode_packImm_nonzero _ _ _ (by decide)]
  simp [decodeOpcode, opcodeField_packImm, sField_packImm, tField_packImm, immField, rawImmField_packImm,
    sext16_immBits (show immInRange imm = true from h), regBits]

theorem bne (s t : RegIdx) (imm : Int) : Statement (.bne s t imm) := by
  intro h
  rw [encode, decode_packImm_nonzero _ _ _ (by decide)]
  simp [decodeOpcode, opcodeField_packImm, sField_packImm, tField_packImm, immField, rawImmField_packImm,
    sext16_immBits (show immInRange imm = true from h), regBits]

theorem addi (t s : RegIdx) (imm : Int) : Statement (.addi t s imm) := by
  intro h
  rw [encode, decode_packImm_nonzero _ _ _ (by decide)]
  simp [decodeOpcode, opcodeField_packImm, sField_packImm, tField_packImm, immField, rawImmField_packImm,
    sext16_immBits (show immInRange imm = true from h), regBits]

theorem slti (t s : RegIdx) (imm : Int) : Statement (.slti t s imm) := by
  intro h
  rw [encode, decode_packImm_nonzero _ _ _ (by decide)]
  simp [decodeOpcode, opcodeField_packImm, sField_packImm, tField_packImm, immField, rawImmField_packImm,
    sext16_immBits (show immInRange imm = true from h), regBits]

theorem andi (t s : RegIdx) (raw : BitVec 16) : Statement (.andi t s raw) := by
  intro _
  rw [encode, decode_packImm_nonzero _ _ _ (by decide)]
  simp [decodeOpcode, opcodeField_packImm, sField_packImm, tField_packImm, rawImmField_packImm, regBits]

theorem ori (t s : RegIdx) (raw : BitVec 16) : Statement (.ori t s raw) := by
  intro _
  rw [encode, decode_packImm_nonzero _ _ _ (by decide)]
  simp [decodeOpcode, opcodeField_packImm, sField_packImm, tField_packImm, rawImmField_packImm, regBits]

theorem lui (t : RegIdx) (raw : BitVec 16) : Statement (.lui t raw) := by
  intro _
  rw [encode, decode_packImm_nonzero _ _ _ (by decide)]
  simp [decodeOpcode, opcodeField_packImm, tField_packImm, rawImmField_packImm, regBits]

end Sys2Proof.Laws.RoundTrip
end

