-- ==== Sys2Proof/Laws/Step.lean ====
section
/-! SUPPORT. What a meaning can do and what a step can do, once: the lemmas later proofs cite instead of unfolding. -/

namespace Sys2Proof.Machine

/-- Everything `syscall` can do. R88 to R93. -/
theorem execSyscall_cases (s : State) :
    (s.serviceCode.toInt = 1 ∧ execSyscall s = .next ((s.emit (.printInt s.serviceArg)).finish s.nextPc)) ∨
    (s.serviceCode.toInt = 10 ∧ execSyscall s = .next s.halt) ∨
    (s.serviceCode.toInt = 11 ∧
      execSyscall s = .next ((s.emit (.printChar (s.serviceArg.setWidth 8))).finish s.nextPc)) ∨
    (s.serviceCode.toInt ≠ 1 ∧ s.serviceCode.toInt ≠ 10 ∧ s.serviceCode.toInt ≠ 11 ∧
      execSyscall s = .next (s.emit (.unknownSyscall s.serviceCode)).halt) := by
  obtain ⟨h, hs⟩ | ⟨h, hs⟩ | ⟨h, hs⟩ | ⟨h1, h10, h11, hs⟩ := syscallService_cases s
  · exact .inl ⟨h, by simp [execSyscall, hs]⟩
  · exact .inr (.inl ⟨h, by simp [execSyscall, hs]⟩)
  · exact .inr (.inr (.inl ⟨h, by simp [execSyscall, hs]⟩))
  · exact .inr (.inr (.inr ⟨h1, h10, h11, by simp [execSyscall, hs]⟩))

/-- Everything a meaning can do: write one register and advance, branch, or perform a service. R24 steps 3 to 7. -/
theorem exec_cases (i : Instr) (s : State) :
    (∃ d v, exec i s = .next (s.retire d v)) ∨
    (∃ c imm, (∃ rs rt, i = .beq rs rt imm ∨ i = .bne rs rt imm) ∧ exec i s = .next (s.branch c imm)) ∨
    (i = .syscall ∧ exec i s = execSyscall s) := by
  cases i with
  | syscall => exact .inr (.inr ⟨rfl, rfl⟩)
  | beq rs rt imm => exact .inr (.inl ⟨_, imm, ⟨rs, rt, .inl rfl⟩, rfl⟩)
  | bne rs rt imm => exact .inr (.inl ⟨_, imm, ⟨rs, rt, .inr rfl⟩, rfl⟩)
  | add d rs rt => exact .inl ⟨d, _, rfl⟩
  | sub d rs rt => exact .inl ⟨d, _, rfl⟩
  | and d rs rt => exact .inl ⟨d, _, rfl⟩
  | or d rs rt => exact .inl ⟨d, _, rfl⟩
  | slt d rs rt => exact .inl ⟨d, _, rfl⟩
  | mul d rs rt => exact .inl ⟨d, _, rfl⟩
  | addi rt rs imm => exact .inl ⟨rt, _, rfl⟩
  | slti rt rs imm => exact .inl ⟨rt, _, rfl⟩
  | andi rt rs raw => exact .inl ⟨rt, _, rfl⟩
  | ori rt rs raw => exact .inl ⟨rt, _, rfl⟩
  | lui rt raw => exact .inl ⟨rt, _, rfl⟩

/-- Everything a step can do: stop in a terminal state, take `DecodeFailure`, or run the decoded instruction. R24. -/
theorem step_cases (s : State) :
    (∃ f, s.fetch = .error f ∧ step s = .fault f) ∨
    (∃ w e, s.fetch = .ok w ∧ decode w = .error e ∧ step s = .next (s.raiseDecodeFailure w)) ∨
    (∃ w i, s.fetch = .ok w ∧ decode w = .ok i ∧ step s = exec i s) := by
  cases hf : s.fetch with
  | error f => exact .inl ⟨f, rfl, by simp [step, hf]⟩
  | ok w =>
    cases hd : decode w with
    | error e => exact .inr (.inl ⟨w, e, rfl, hd, by simp [step, hf, hd, execUndecodable]⟩)
    | ok i => exact .inr (.inr ⟨w, i, rfl, hd, by simp [step, hf, hd]⟩)

end Sys2Proof.Machine
end

