-- ==== Sys2Proof/Tests/Slice0.lean ====
section
/-! SUPPORT. The model's own tests. Expected results are the spec's: the vectors of spec/95_test_vectors.md, named beside each
test, or the examples and corner cases of the instruction's rule. After them, one witness for each obligation that has hypotheses: a
concrete state and operands that meet them all together. -/

namespace Sys2Proof.Tests

open Sys2Proof.Machine

/-- A state with a program, a pc and some registers set, otherwise as after reset. -/
def st (imem : List Word) (pc : Int) (regs : List (RegIdx × Int)) : State :=
  regs.foldl (fun s r => s.writeReg r.1 (BitVec.ofInt 32 r.2))
    { State.reset with imem := imem, pc := BitVec.ofInt 32 pc }

/-- The next state of a result, if it is one. -/
def nextOf : Result → Option State
  | .next t => some t
  | .fault _ => none
  | .refused _ => none

/-- One step of a one-word program at pc 0: the register `r` and the pc after it. -/
def stepReg (w : Word) (regs : List (RegIdx × Int)) (r : RegIdx) : Option (Int × Int) :=
  (nextOf (step (st [w] 0 regs))).map fun t => ((t.readReg r).toInt, t.pc.toInt)

/-- The pc after one step of the word `w` at index `k` of a store of `k + 1` words. -/
def stepPc (w : Word) (k : Nat) (regs : List (RegIdx × Int)) : Option Int :=
  (nextOf (step (st (Memory.place [] k w) k regs))).map fun t => t.pc.toInt

/-- The events, whether the core halted, and the pc after one `syscall` at pc 0. -/
def stepSyscall (code arg : Int) : Option (List Event × RunState × Int) :=
  (nextOf (step (st [0x0000000C#32] 0 [(2, code), (4, arg)]))).map fun t => (t.out, t.runState, t.pc.toInt)

/-! ### Well-formedness: an ill-formed term for each check -/

theorem smoke_wf_beq : Instr.wf (.beq 1 2 32768) = false ∧ Instr.wf (.beq 1 2 (-32769)) = false := by decide
theorem smoke_wf_bne : Instr.wf (.bne 1 2 32768) = false ∧ Instr.wf (.bne 1 2 (-32769)) = false := by decide
theorem smoke_wf_addi : Instr.wf (.addi 1 2 32768) = false ∧ Instr.wf (.addi 1 2 (-32769)) = false := by decide
theorem smoke_wf_slti : Instr.wf (.slti 1 2 32768) = false ∧ Instr.wf (.slti 1 2 (-32769)) = false := by decide
theorem smoke_wf_boundaries : Instr.wf (.beq 1 2 32767) = true ∧ Instr.wf (.addi 1 2 (-32768)) = true := by decide

/-! ### Decoding: a word of every constructor, written out from R50 (vectors of section 2.1) -/

theorem test_decode_syscall : decodeTableWord 32 0x0000000C = some .syscall := by decide  -- D1
theorem test_decode_add : decodeTableWord 32 0b00000000001000100001111111100000 = some (.add 3 1 2) := by decide  -- D8
theorem test_decode_sub : decodeTableWord 32 0b00000000001000100001100000100010 = some (.sub 3 1 2) := by decide  -- D9
theorem test_decode_and : decodeTableWord 32 0b00000000001000100001100000100100 = some (.and 3 1 2) := by decide  -- D10
theorem test_decode_or : decodeTableWord 32 0b00000000001000100001100000100101 = some (.or 3 1 2) := by decide  -- D11
theorem test_decode_slt : decodeTableWord 32 0b00000011111111111111100000101010 = some (.slt 31 31 31) := by decide  -- D13
theorem test_decode_mul : decodeTableWord 32 0b01110000001000100001100000000010 = some (.mul 3 1 2) := by decide  -- D15
theorem test_decode_beq : decodeTableWord 32 0b00010000001000100000000000000011 = some (.beq 1 2 3) := by decide  -- D18
theorem test_decode_bne : decodeTableWord 32 0b00010111111000001000000000000000 = some (.bne 31 0 (-32768)) := by decide  -- D20
theorem test_decode_addi : decodeTableWord 32 0b00100001001010001111111111111011 = some (.addi 8 9 (-5)) := by decide  -- D21
theorem test_decode_slti : decodeTableWord 32 0b00101011111111110111111111111111 = some (.slti 31 31 32767) := by decide  -- D22
theorem test_decode_andi : decodeTableWord 32 0b00110011111111110000000000000000 = some (.andi 31 31 0) := by decide  -- D23
theorem test_decode_ori : decodeTableWord 32 0b00110111111000001111111111111111 = some (.ori 0 31 65535) := by decide  -- D24
theorem test_decode_lui : decodeTableWord 32 0b00111111111010000001001000110100 = some (.lui 8 4660) := by decide  -- D26

/-- Vectors D2 to D5 and D28 to D38: words that fail. -/
theorem test_decode_fails :
    [0x0000004C#32, 0x0000080C#32, 0x00000000#32, 0xFFFFFFFF#32, 0x00000021#32, 0x0000002B#32, 0x0000000D#32, 0x0000000F#32,
      0x04000000#32, 0x08000000#32, 0x24080001#32, 0x6C000000#32, 0x74000000#32, 0x8C000000#32, 0xAC000000#32].all
      (fun w => !decodable w) = true := by decide

/-- The canonical words of R55 as the vectors D7, D14, D25 and the examples of R71, R76 give them. -/
theorem test_encode :
    encode (.add 3 1 2) = 0x00221820#32 ∧ encode (.mul 3 1 2) = 0x70221800#32 ∧ encode (.lui 8 4660) = 0x3C081234#32 ∧
    encode (.beq 1 2 3) = 0x10220003#32 ∧ encode (.addi 8 9 (-5)) = 0x2128FFFB#32 := by decide

/-- Vectors S2 to S5, at both thresholds. -/
theorem test_sext16 :
    [0x7FFE#16, 0x7FFF#16, 0x8000#16, 0xFFFF#16].map sext16 = [32766, 32767, -32768, -1] ∧
    [0x7FFE#16, 0x7FFF#16, 0x8000#16, 0xFFFF#16].map (sext16At 32767) = [32766, -32769, -32768, -1] := by decide

/-! ### Instructions, one step each (vectors of sections 2.3 to 2.7) -/

theorem test_add_wraps : stepReg 0x00221820 [(1, 2147483647), (2, 1)] 3 = some (-2147483648, 1) := by decide  -- A2
theorem test_add_doubles_itself : stepReg 0x00210820 [(1, 2147483647)] 1 = some (-2, 1) := by decide  -- A3
theorem test_sub_order : stepReg 0x00221822 [(1, 5), (2, 7)] 3 = some (-2, 1) := by decide  -- A6
theorem test_sub_wraps : stepReg 0x00021822 [(2, -2147483648)] 3 = some (-2147483648, 1) := by decide  -- A8
theorem test_and : stepReg 0x00221824 [(1, -16), (2, 2147483647)] 3 = some (2147483632, 1) := by decide  -- A10
theorem test_or : stepReg 0x00221825 [(1, 3855), (2, -252706816)] 3 = some (-252702961, 1) := by decide  -- A11
theorem test_slt_signed : stepReg 0x0022182A [(1, 1), (2, -1), (3, 9)] 3 = some (0, 1) := by decide  -- A13
theorem test_slt_no_overflow : stepReg 0x0022182A [(1, -2147483648), (2, 2147483647)] 3 = some (1, 1) := by decide  -- A15
theorem test_mul_low_half : stepReg 0x70221800 [(1, 123456789), (2, 987654321)] 3 = some (-67153019, 1) := by decide  -- A21
theorem test_mul_ignored_bits : stepReg 0x70221802 [(1, 6), (2, -7)] 3 = some (-42, 1) := by decide  -- A22
theorem test_add_to_zero : stepReg 0x00220020 [(1, 5), (2, 7)] 0 = some (0, 1) := by decide  -- A4
theorem test_addi_negative : stepReg 0x2128FFFB [(9, 3)] 8 = some (-2, 1) := by decide  -- I1
theorem test_addi_wraps : stepReg 0x21280001 [(9, 2147483647)] 8 = some (-2147483648, 1) := by decide  -- I2
theorem test_slti_negative : stepReg 0x2928FFFF [(9, 0), (8, 9)] 8 = some (0, 1) := by decide  -- I6
theorem test_slti_equal : stepReg 0x29287FFF [(9, 32767), (8, 9)] 8 = some (0, 1) := by decide  -- I7
theorem test_andi_zero_extends : stepReg 0x31288001 [(9, -1)] 8 = some (32769, 1) := by decide  -- I8
theorem test_ori_zero_extends : stepReg 0x35288001 [(9, 65536)] 8 = some (98305, 1) := by decide  -- I11
theorem test_ori_constant : stepReg 0x3408FFFF [] 8 = some (65535, 1) := by decide  -- I12
theorem test_lui_negative : stepReg 0x3C08FFFF [] 8 = some (-65536, 1) := by decide  -- L3
theorem test_lui_ignored_bits : stepReg 0x3FE81234 [(31, 99)] 8 = some (305397760, 1) := by decide  -- L5
theorem test_beq_taken_and_not :
    stepPc 0x10220003 0 [(1, 4), (2, 4)] = some 3 ∧ stepPc 0x10220003 0 [(1, 4), (2, 5)] = some 1 := by decide  -- B1, B2
theorem test_beq_out_of_program : stepPc 0x10007FFF 0 [] = some 32767 := by decide  -- B7
theorem test_bne_taken_and_not :
    stepPc 0x1420FFFF 1 [(1, 1)] = some 0 ∧ stepPc 0x1420FFFF 1 [(1, 0)] = some 2 := by decide  -- B3, B4
theorem test_bne_below_zero :
    (nextOf (exec (.bne 1 0 (-32768)) (st [] 999 [(1, 1)]))).map (fun t => t.pc.toInt) = some (-31769) := by decide  -- B8
theorem test_syscall_prints :
    stepSyscall 1 (-7) = some ([.printInt (BitVec.ofInt 32 (-7))], .running, 1) ∧
    stepSyscall 11 (-191) = some ([.printChar 65#8], .running, 1) := by decide  -- Y1, Y5
theorem test_syscall_halts :
    stepSyscall 10 3 = some ([], .halted, 0) ∧
    stepSyscall (-1) 0 = some ([.unknownSyscall (BitVec.ofInt 32 (-1))], .halted, 0) := by decide  -- Y7, Y9

/-! ### Faults and the end of a run (section 2.8) -/

theorem test_decode_failure :
    (nextOf (step (st [0xFFFFFFFF#32] 0 []))).map (fun t => (t.fault, t.runState, t.pc)) =
      some (some (.decodeFailure 1 0xFFFFFFFF#32), .running, 0#32) := by decide  -- X2
theorem test_empty_program : State.reset.endCause = some .fellOff := by decide  -- X1
theorem test_assembly :
    assemblyText (.addi 16 0 1) = "addi $16,$0,1" ∧ assemblyText (.bne 1 2 (-9)) = "bne $1,$2,-9" ∧
    assemblyText .syscall = "syscall" := by decide  -- R57's examples, P3 index 5

/-! ### Witnesses: for each obligation with hypotheses, a state and operands that meet them together -/

theorem witness_DecodeInvertsEncode :
    Instr.wf (.beq 31 31 (-32768)) = true ∧ Instr.wf (.addi 0 31 32767) = true ∧
    decodeTableWord 32 0x00221FE0 = some (.add 3 1 2) ∧ 0x00221FE0#32 &&& Instr.ignoredMask (.add 3 1 2) ≠ 0#32 ∧
    decodeTableWord 32 0x3C081234 = some (.lui 8 0x1234#16) ∧ 0x3C081234#32 &&& Instr.ignoredMask (.lui 8 0x1234#16) = 0#32 := by
  decide

theorem witness_DecodedInstructionsAreWellFormed : decode 0x2BFF8000#32 = .ok (.slti 31 31 (-32768)) := by rfl

theorem witness_SyscallIsOneWord :
    opcodeField 0x0000004C#32 = 0#6 ∧ functField 0x0000004C#32 = 0x0C#6 ∧ 0x0000004C#32 ≠ 0x0000000C#32 := by decide

theorem witness_IgnoredBitsNeverMatter :
    decode 0x3C081234#32 = .ok (.lui 8 0x1234#16) ∧
    0x3FE81234#32 &&& ~~~(Instr.ignoredMask (.lui 8 0x1234#16)) = 0x3C081234#32 &&& ~~~(Instr.ignoredMask (.lui 8 0x1234#16)) :=
  ⟨rfl, by decide⟩

theorem witness_AddWritesWrappedSum : 0x03FFFFE0#32 &&& 0xFC00003F#32 = 0x00000020#32 := by decide
theorem witness_SubWritesWrappedDifference : 0x03FFFFE2#32 &&& 0xFC00003F#32 = 0x00000022#32 := by decide
theorem witness_AndWritesBitwiseAnd : 0x03FFFFE4#32 &&& 0xFC00003F#32 = 0x00000024#32 := by decide
theorem witness_OrWritesBitwiseOr : 0x03FFFFE5#32 &&& 0xFC00003F#32 = 0x00000025#32 := by decide
theorem witness_SltWritesSignedComparison : 0x03FFFFEA#32 &&& 0xFC00003F#32 = 0x0000002A#32 := by decide
theorem witness_MulWritesLowProduct : 0x73FFFFFF#32 &&& 0xFC000000#32 = 0x70000000#32 := by decide
theorem witness_BeqMovesPcWhenEqual : 0x13FFFFFF#32 &&& 0xFC000000#32 = 0x10000000#32 := by decide
theorem witness_BneMovesPcWhenNotEqual : 0x17E08000#32 &&& 0xFC000000#32 = 0x14000000#32 := by decide
theorem witness_AddiWritesWrappedSum : 0x23FFFFFF#32 &&& 0xFC000000#32 = 0x20000000#32 := by decide
theorem witness_SltiWritesSignedComparison : 0x2BFF7FFF#32 &&& 0xFC000000#32 = 0x28000000#32 := by decide
theorem witness_AndiUsesZeroExtendedConstant : 0x33FFFFFF#32 &&& 0xFC000000#32 = 0x30000000#32 := by decide
theorem witness_OriUsesZeroExtendedConstant : 0x37E0FFFF#32 &&& 0xFC000000#32 = 0x34000000#32 := by decide
theorem witness_LuiWritesShiftedConstant : 0x3FE8FFFF#32 &&& 0xFC000000#32 = 0x3C000000#32 := by decide

/-- Both ways to be taken; the `beq` stays in the program (the target of vector B1), the `bne` leaves it below 0 (P3 index 5). -/
theorem witness_TakenBranchGoesStraightToItsTarget :
    (let s := st [0x10220002#32, 0#32, 0x20#32] 0 [(1, 4), (2, 4)]
     Memory.wf s.imem = true ∧ s.fetch = .ok 0x10220002#32 ∧ decode 0x10220002#32 = .ok (.beq 1 2 2) ∧
       s.readReg 1 = s.readReg 2) ∧
    (let s := st [0x1422FFF7#32] 0 [(1, 7), (2, 8)]
     Memory.wf s.imem = true ∧ s.fetch = .ok 0x1422FFF7#32 ∧ decode 0x1422FFF7#32 = .ok (.bne 1 2 (-9)) ∧
       s.readReg 1 ≠ s.readReg 2) :=
  ⟨⟨by decide, rfl, rfl, by decide⟩, by decide, rfl, rfl, by decide⟩

theorem witness_LuiThenOriBuildsAnyConstant : (8 : RegIdx) ≠ 0 := by decide

/-- Each of the four exact results, two of them at the ends of the range, and each of the other instructions of R67. -/
theorem witness_ArithmeticWrapsModulo32Bits :
    let s := st [] 0 [(1, 2147483647), (2, 0)]
    (Instr.add 3 1 2 = .add 3 1 2 ∧ (2147483647 : Int) = (s.readReg 1).toInt + (s.readReg 2).toInt ∧ (3 : RegIdx) ≠ 0 ∧
      exec (.add 3 1 2) s = .next (s.retire 3 2147483647#32) ∧ (2147483647 : Int) ≤ 2 ^ 31 - 1) ∧
    (-2147483647 : Int) = (s.readReg 2).toInt - (s.readReg 1).toInt ∧
      exec (.sub 3 2 1) s = .next (s.retire 3 (BitVec.ofInt 32 (-2147483647))) ∧
    exec (.mul 3 1 1) s = .next (s.retire 3 1#32) ∧ exec (.addi 3 1 1) s = .next (s.retire 3 (BitVec.ofInt 32 (-2147483648))) ∧
    exec (.and 3 1 2) s = .next (s.retire 3 0#32) ∧ exec (.or 3 1 2) s = .next (s.retire 3 2147483647#32) ∧
    exec (.andi 3 1 0xFFFF#16) s = .next (s.retire 3 65535#32) ∧ exec (.ori 3 2 0xFFFF#16) s = .next (s.retire 3 65535#32) ∧
    exec (.slt 3 2 1) s = .next (s.retire 3 1#32) ∧ exec (.slti 3 1 0) s = .next (s.retire 3 0#32) := by
  refine ⟨⟨rfl, by decide, by decide, rfl, by decide⟩, by decide, rfl, rfl, rfl, rfl, rfl, rfl, rfl, rfl, rfl⟩

theorem witness_ServiceOnePrintsTheInteger : (st [0xC#32] 0 [(2, 1), (4, -7)]).readReg 2 = 1#32 := by decide
theorem witness_ServiceTenHalts : (st [0xC#32] 0 [(2, 10)]).readReg 2 = 10#32 := by decide
theorem witness_ServiceElevenPrintsLowByte : (st [0xC#32] 0 [(2, 11), (4, 321)]).readReg 2 = 11#32 := by decide
theorem witness_UnknownServiceReportsAndHalts :
    let s := st [0xC#32] 0 [(2, -1)]
    s.readReg 2 ≠ 1#32 ∧ s.readReg 2 ≠ 10#32 ∧ s.readReg 2 ≠ 11#32 := by decide
theorem witness_HaltingSyscallKeepsPcAndEndsTheRun :
    (let s := st [0xC#32] 0 [(2, 10)]
     s.readReg 2 ≠ 1#32 ∧ s.readReg 2 ≠ 11#32) ∧
    let s := st [0xC#32] 0 []
    s.readReg 2 ≠ 1#32 ∧ s.readReg 2 ≠ 11#32 := by decide

theorem witness_StepRunsTheDecodedInstruction :
    let s := st [0xFFFFFFFF#32, 0x2128FFFB#32] 1 [(9, 3)]
    s.runState = .running ∧ s.fault = none ∧ 0 ≤ s.pc.toInt ∧ s.imem[s.pc.toInt.toNat]? = some 0x2128FFFB#32 ∧
      decode 0x2128FFFB#32 = .ok (.addi 8 9 (-5)) :=
  ⟨rfl, rfl, by decide, by decide, rfl⟩

theorem witness_UndecodableWordTakesDecodeFailure :
    (st [0x20#32, 0x00000000#32] 1 []).fetch = .ok 0x00000000#32 ∧
      decode 0x00000000#32 = .error (.unknownFunct 0#6) := ⟨rfl, rfl⟩

theorem witness_RegisterZeroIsHardwired :
    let s := st [] 0 [(1, 5)]
    Instr.dest (.addi 0 1 7) = some 0 ∧ exec (.addi 0 1 7) s = .next (s.retire 0 12#32) := ⟨rfl, rfl⟩

/-- A completed step from a state whose slot 0 is not zero, a halting `syscall`, and a decode failure. -/
theorem witness_CompletedStepClearsRegisterZero :
    (let s := st [0x20010001#32] 0 [(0, 5)]
     step s = .next s.after ∧ s.after.runState = .running ∧ s.after.fault = none ∧ s.regs[0] = 5#32) ∧
    (let s := st [0xC#32] 0 [(2, 10)]
     step s = .next s.after ∧ s.after.runState = .halted) ∧
    let s := st [0x0#32] 0 []
    step s = .next s.after ∧ s.after.fault ≠ none :=
  ⟨⟨rfl, by decide, by decide, by decide⟩, ⟨rfl, by decide⟩, rfl, by decide⟩

theorem witness_OnlyTheDestinationRegisterChanges :
    let s := st [] 0 [(1, 5)]
    exec (.addi 1 1 7) s = .next (s.retire 1 12#32) ∧ Instr.dest (.addi 1 1 7) ≠ some 2 ∧
      exec (.beq 1 2 3) s = .next (s.branch false 3) ∧ Instr.dest (.beq 1 2 3) ≠ some 1 :=
  ⟨rfl, by decide, rfl, by decide⟩

/-- Two states that differ in `x[4]` and `x[7]`: for `add $3,$1,$2`, and for a `syscall` with code 10, which does not read
`x[4]`. -/
theorem witness_InstructionsReadOnlyTheirSources :
    let a := st [] 5 [(1, 5), (2, 10), (4, 1), (7, 1)]
    let b := st [] 5 [(1, 5), (2, 10), (4, 2), (7, 2)]
    (∀ r ∈ Instr.sources (.add 3 1 2) a.serviceCode, a.readReg r = b.readReg r) ∧
    (∀ r ∈ Instr.sources .syscall a.serviceCode, a.readReg r = b.readReg r) ∧ a.pc = b.pc ∧ a ≠ b ∧
    exec (.add 3 1 2) a = .next (a.retire 3 15#32) ∧ exec (.add 3 1 2) b = .next (b.retire 3 15#32) ∧
    exec .syscall a = .next a.halt ∧ exec .syscall b = .next b.halt :=
  ⟨by decide, by decide, by decide, by decide, rfl, rfl, rfl, rfl⟩

theorem witness_OnlyHaltingSyscallHalts :
    (let s := st [0xC#32] 0 [(2, 10)]
     step s = .next s.after ∧ s.after.runState = .halted) ∧
    (let s := st [0xC#32] 0 [(2, 1)]
     step s = .next s.after ∧ s.after.runState = .running) := ⟨⟨rfl, by decide⟩, rfl, by decide⟩

/-- A word of each arm of the statement: taken and untaken branches, a service that continues and one that halts, a plain
instruction, a word that fails. -/
theorem witness_PcAdvancesExactly :
    let s := st [0x1020FFFF#32, 0x1420FFFF#32, 0xC#32, 0x20#32, 0x0#32] 0 [(2, 1)]
    Memory.wf s.imem = true ∧
    (s.fetch = .ok 0x1020FFFF#32 ∧ step s = .next s.after) ∧
    ((s.setPc 1).fetch = .ok 0x1420FFFF#32 ∧ step (s.setPc 1) = .next (s.setPc 1).after) ∧
    ((s.setPc 2).fetch = .ok 0xC#32 ∧ step (s.setPc 2) = .next (s.setPc 2).after) ∧
    ((s.setPc 3).fetch = .ok 0x20#32 ∧ step (s.setPc 3) = .next (s.setPc 3).after) ∧
    ((s.setPc 4).fetch = .ok 0x0#32 ∧ step (s.setPc 4) = .next (s.setPc 4).after) ∧
    (let h := (s.setPc 2).writeReg 2 10#32
     h.fetch = .ok 0xC#32 ∧ step h = .next h.after) :=
  ⟨by decide, ⟨rfl, rfl⟩, ⟨rfl, rfl⟩, ⟨rfl, rfl⟩, ⟨rfl, rfl⟩, ⟨rfl, rfl⟩, rfl, rfl⟩

theorem witness_EventTraceIsAppendOnly :
    let s := { st [0xC#32] 0 [(2, 1), (4, 7)] with out := [.printChar 65#8] }
    step s = .next s.after ∧ s.after.out = [.printChar 65#8, .printInt 7#32] := ⟨rfl, by decide⟩

/-- Program X6 of section 2.8, its four steps: two `addi`, two `syscall`. -/
theorem witness_RunsNeverChangeTheProgram :
    let s := st [0x20020001#32, 0x2004FFF9#32, 0x0000000C#32, 0x0000000C#32] 0 []
    Host.Core.run Sys2Proof.core 4 s = .next s.after.after.after.after := rfl

/-- Two states of the invariant with a next state: a `syscall` that halts and a word that fails. -/
theorem witness_EveryStepKeepsTheInvariant :
    (State.Inv (st [0xC#32] 0 [(2, 10)]) ∧ step (st [0xC#32] 0 [(2, 10)]) = .next (st [0xC#32] 0 [(2, 10)]).halt) ∧
    (State.Inv (st [0x0#32] 0 []) ∧ step (st [0x0#32] 0 []) = .next (st [0x0#32] 0 []).after) :=
  ⟨⟨⟨by decide, by decide, by decide, (by intro h; cases h), (by intro _ _ h; cases h)⟩, rfl⟩,
    ⟨by decide, by decide, by decide, (by intro h; cases h), (by intro _ _ h; cases h)⟩, rfl⟩

theorem witness_ResetAndBootMeetTheInvariant : boot [0xC#32] = .ok { State.reset with imem := [0xC#32] } := rfl

/-- A program whose words all decode, run to its end (code 0 is unknown) and under too little fuel. -/
theorem witness_DecodableProgramsNeverFault :
    let s := st [0x20010003#32, 0xC#32] 0 []
    Memory.AllDecodable s.imem ∧ s.fault = none ∧
    runFrom 2 s = .ended (.unknownSyscall 0#32) s.after.after ∧ runFrom 1 s = .outOfFuel s.after :=
  ⟨List.all_eq_true.mp (show [0x20010003#32, 0xC#32].all decodable = true by decide), rfl, rfl, rfl⟩

theorem witness_BootAcceptsUpToCapacity :
    (List.replicate 1000 0x20#32).length ≤ 1000 ∧ 1001 ≤ (List.replicate 1001 0x20#32).length :=
  ⟨List.length_replicate.le, List.length_replicate.ge⟩

/-- The listing of program X4 of section 2.8, which the simulator aborts at position 3. -/
theorem witness_ListingPassFindsTheFirstBadWord :
    (listingFrom 0 [0x2002000A#32, 0x0000000C#32, 0xFFFFFFFF#32]).2 = some (.decodeFailure 3 0xFFFFFFFF#32) := by decide

/-- A state of the invariant for each cause. -/
theorem witness_EndCauseTellsHowTheRunEnded :
    (let s := (st [0xC#32] 0 [(2, 10)]).after
     s.Inv ∧ s.endCause = some .exit) ∧
    (let s := (st [0xC#32] 0 []).after
     s.Inv ∧ s.endCause = some (.unknownSyscall 0#32)) ∧
    (let s := (st [0x0#32] 0 []).after
     s.Inv ∧ s.endCause = some (.decodeFailure 1 0#32)) ∧
    (let s := (st [0x20#32] 0 []).after
     s.Inv ∧ s.endCause = some .fellOff) := by
  refine ⟨⟨⟨by decide, by decide, by decide, fun _ => ⟨by decide, by decide, .inl (by decide)⟩, (by intro _ _ h; cases h)⟩, by decide⟩,
    ⟨⟨by decide, by decide, by decide,
      fun _ => ⟨by decide, by decide, .inr ⟨by decide, by decide, by decide, by decide⟩⟩, (by intro _ _ h; cases h)⟩, by decide⟩,
    ⟨⟨by decide, by decide, by decide, (by intro h; cases h), ?_⟩, by decide⟩,
    ⟨by decide, by decide, by decide, (by intro h; cases h), (by intro _ _ h; cases h)⟩, by decide⟩
  intro p w h
  cases h
  exact ⟨by decide, by decide, by decide, by decide, by decide, by decide⟩

/-- R133's own example `beq $0,$0,0`, and a taken `bne` with `imm = 0`. -/
theorem witness_BranchToItselfNeverEnds :
    (let s := st [0x20#32, 0x10000000#32] 1 []
     s.fetch = .ok 0x10000000#32 ∧ decode 0x10000000#32 = .ok (.beq 0 0 0) ∧ s.readReg 0 = s.readReg 0) ∧
    (let s := st [0x14220000#32] 0 [(1, 5)]
     s.fetch = .ok 0x14220000#32 ∧ decode 0x14220000#32 = .ok (.bne 1 2 0) ∧ s.readReg 1 ≠ s.readReg 2) :=
  ⟨⟨rfl, rfl, rfl⟩, rfl, rfl, by decide⟩

/-- A value at each end of the two ranges of the statement. -/
theorem witness_OutputTextAddsNothing :
    0 ≤ (0#32).toInt ∧ 0 ≤ (2147483647#32).toInt ∧ (0xFFFFFFFF#32).toInt < 0 ∧ (0x80000000#32).toInt < 0 := by decide

theorem witness_PlacedWordIsTheNextStep :
    decode 0x2128FFFB#32 = .ok (.addi 8 9 (-5)) ∧ Memory.wf (st [] (-4) []).imem = true := ⟨rfl, by decide⟩

end Sys2Proof.Tests
end

section
/-! SUPPORT. Proofs of the family 10_state: what a decoded instruction, a fetch and a step can do, and the exact movement of
the pc (spec/10_state.md R13 to R18, R24). -/

namespace Sys2Proof

/-! ### The decoder -/

/-- R46: `syscall` is one word. -/
theorem decode_eq_syscall_iff (w : Word) : decode w = .ok .syscall ↔ w = syscallWord := by
  refine ⟨fun h => ?_, fun h => h ▸ decode_syscallWord⟩
  simpa using decode_cases h

theorem decodable_syscallWord : decodable syscallWord = true := by rw [decodable, decode_syscallWord]

theorem decodable_of_error {w : Word} {e : DecodeReject} (h : decode w = .error e) : decodable w = false := by
  rw [decodable, h]

theorem immInRange_iff (imm : Int) : immInRange imm = true ↔ -32768 ≤ imm ∧ imm ≤ 32767 := by
  simp [immInRange]

/-- R44, D1: the immediate field is always in the encodable range. -/
theorem immInRange_immField (w : Word) : immInRange (immField w) = true :=
  (immInRange_iff _).mpr (sext16_range (rawImmField w))

/-- R44, R45: only four instructions have a signed immediate, and theirs is the immediate field. -/
theorem decode_wf {w : Word} {i : Instr} (h : decode w = .ok i) : i.wf = true := by
  have hc := decode_cases h
  cases i with
  | beq _ _ imm | bne _ _ imm | addi _ _ imm | slti _ _ imm =>
    have himm : imm = immField w := by simp_all
    exact himm ▸ immInRange_immField w
  | _ => rfl

/-- Every instruction writes a destination, is a branch, or is `syscall`. R13. -/
theorem Instr.dest_cases (i : Instr) :
    (∃ d, i.dest = some d) ∨ (∃ rs rt imm, i = .beq rs rt imm ∨ i = .bne rs rt imm) ∨ i = .syscall := by
  cases i with
  | syscall => exact .inr (.inr rfl)
  | beq rs rt imm => exact .inr (.inl ⟨rs, rt, imm, .inl rfl⟩)
  | bne rs rt imm => exact .inr (.inl ⟨rs, rt, imm, .inr rfl⟩)
  | _ => exact .inl ⟨_, rfl⟩

end Sys2Proof

namespace Sys2Proof.Machine

/-! ### The meanings, by kind of instruction (R13, R24 steps 3 to 7) -/

variable {i : Instr} {a b s t : State} {w : Word} {d : RegIdx}

/-- R13: what an instruction writes to its destination depends on its sources only. -/
theorem exec_dest_agree (hd : i.dest = some d) (h : ∀ r ∈ i.sources a.serviceCode, a.readReg r = b.readReg r) :
    ∃ v, exec i a = .next (a.retire d v) ∧ exec i b = .next (b.retire d v) := by
  cases i with
  | syscall | beq | bne => cases hd
  | lui => cases hd; exact ⟨_, rfl, rfl⟩
  | add _ s t | sub _ s t | and _ s t | or _ s t | slt _ s t | mul _ s t =>
    cases hd
    have hs : a.readReg s = b.readReg s := h s (by simp [Instr.sources])
    have ht : a.readReg t = b.readReg t := h t (by simp [Instr.sources])
    exact ⟨_, rfl, by rw [hs, ht]; rfl⟩
  | addi _ s | slti _ s | andi _ s | ori _ s =>
    cases hd
    have hs : a.readReg s = b.readReg s := h s (by simp [Instr.sources])
    exact ⟨_, rfl, by rw [hs]; rfl⟩

/-- R24 step 5: an instruction with a destination writes it and advances. -/
theorem exec_of_dest (hd : i.dest = some d) (s : State) : ∃ v, exec i s = .next (s.retire d v) := by
  obtain ⟨v, hv, -⟩ := exec_dest_agree (a := s) (b := s) hd fun _ _ => rfl
  exact ⟨v, hv⟩

/-- R71: `beq` branches when its two registers are equal. -/
theorem exec_beq (rs rt : RegIdx) (imm : Int) (s : State) :
    exec (.beq rs rt imm) s = .next (s.branch (decide (s.readReg rs = s.readReg rt)) imm) := rfl

/-- R72: `bne` branches when they differ. -/
theorem exec_bne (rs rt : RegIdx) (imm : Int) (s : State) :
    exec (.bne rs rt imm) s = .next (s.branch (decide (s.readReg rs ≠ s.readReg rt)) imm) := by
  rw [decide_not]
  rfl

/-- R70: whether a branch is taken depends on its sources only. -/
theorem exec_branch_agree {rs rt : RegIdx} {imm : Int} (hi : i = .beq rs rt imm ∨ i = .bne rs rt imm)
    (h : ∀ r ∈ i.sources a.serviceCode, a.readReg r = b.readReg r) :
    ∃ c, exec i a = .next (a.branch c imm) ∧ exec i b = .next (b.branch c imm) := by
  obtain rfl | rfl := hi
  all_goals
    have hs : a.readReg rs = b.readReg rs := h rs (by simp [Instr.sources])
    have ht : a.readReg rt = b.readReg rt := h rt (by simp [Instr.sources])
  · exact ⟨_, exec_beq rs rt imm a, by rw [exec_beq, hs, ht]⟩
  · exact ⟨_, exec_bne rs rt imm a, by rw [exec_bne, hs, ht]⟩

/-- R90: service 1. -/
theorem exec_syscall_printInt (h : s.serviceCode.toInt = 1) :
    exec .syscall s = .next ((s.emit (.printInt s.serviceArg)).finish s.nextPc) := by
  simp [exec, execSyscall, State.syscallService, h]

/-- R91: service 10. -/
theorem exec_syscall_exit (h : s.serviceCode.toInt = 10) : exec .syscall s = .next s.halt := by
  simp [exec, execSyscall, State.syscallService, h]

/-- R92: service 11. -/
theorem exec_syscall_printChar (h : s.serviceCode.toInt = 11) :
    exec .syscall s = .next ((s.emit (.printChar (s.serviceArg.setWidth 8))).finish s.nextPc) := by
  simp [exec, execSyscall, State.syscallService, h]

/-- R93: every other service code. -/
theorem exec_syscall_unknown (h1 : s.serviceCode.toInt ≠ 1) (h10 : s.serviceCode.toInt ≠ 10)
    (h11 : s.serviceCode.toInt ≠ 11) : exec .syscall s = .next (s.emit (.unknownSyscall s.serviceCode)).halt := by
  simp [exec, execSyscall, State.syscallService, h1, h10, h11]

/-- R89: the service code is `x[2]`. -/
theorem State.serviceCode_eq (s : State) : s.serviceCode = s.readReg 2 := rfl

/-- R13: `syscall` reads `x[2]`, and `x[4]` only in services 1 and 11. -/
theorem exec_syscall_agree (h : ∀ r ∈ Instr.sources .syscall a.serviceCode, a.readReg r = b.readReg r) :
    (∃ e, exec .syscall a = .next ((a.emit e).finish a.nextPc) ∧ exec .syscall b = .next ((b.emit e).finish b.nextPc)) ∨
    (exec .syscall a = .next a.halt ∧ exec .syscall b = .next b.halt) ∨
    (∃ e, exec .syscall a = .next (a.emit e).halt ∧ exec .syscall b = .next (b.emit e).halt) := by
  have hcode : b.serviceCode = a.serviceCode :=
    (h Config.syscallCodeReg (by simp only [Instr.sources]; split <;> simp)).symm
  have harg (hc : a.serviceCode.toInt = 1 ∨ a.serviceCode.toInt = 11) : b.serviceArg = a.serviceArg :=
    (h Config.syscallArgReg (by simp [Instr.sources, hc])).symm
  by_cases h1 : a.serviceCode.toInt = 1
  · refine .inl ⟨_, exec_syscall_printInt h1, ?_⟩
    rw [exec_syscall_printInt (hcode ▸ h1), harg (.inl h1)]
  by_cases h11 : a.serviceCode.toInt = 11
  · refine .inl ⟨_, exec_syscall_printChar h11, ?_⟩
    rw [exec_syscall_printChar (hcode ▸ h11), harg (.inr h11)]
  by_cases h10 : a.serviceCode.toInt = 10
  · exact .inr (.inl ⟨exec_syscall_exit h10, exec_syscall_exit (hcode ▸ h10)⟩)
  · refine .inr (.inr ⟨_, exec_syscall_unknown h1 h10 h11, ?_⟩)
    rw [exec_syscall_unknown (hcode ▸ h1) (hcode ▸ h10) (hcode ▸ h11), hcode]

/-- R105: a meaning always answers a next state. -/
theorem exec_next (i : Instr) (s : State) : ∃ t, exec i s = .next t := by
  obtain ⟨d, v, h⟩ | ⟨c, imm, -, h⟩ | ⟨rfl, -⟩ := exec_cases i s
  · exact ⟨_, h⟩
  · exact ⟨_, h⟩
  · obtain ⟨-, h⟩ | ⟨-, h⟩ | ⟨-, h⟩ | ⟨-, -, -, h⟩ := execSyscall_cases s
    all_goals exact ⟨_, h⟩

/-! ### The fetch (R24 step 1, R126) -/

/-- R126 (a). -/
theorem State.fetch_halted_iff : s.fetch = .error .halted ↔ s.runState = .halted := by
  obtain ⟨hr, hs⟩ | ⟨hr, -, hs⟩ | ⟨hr, -, -, hs⟩ | ⟨hr, -, w, -, hs⟩ := s.fetch_cases
  all_goals simp [hr, hs]

/-- R126 (b). -/
theorem State.fetch_decodeFailed_iff :
    s.fetch = .error .decodeFailed ↔ s.runState = .running ∧ s.fault ≠ none := by
  obtain ⟨hr, hs⟩ | ⟨hr, ⟨r, hf⟩, hs⟩ | ⟨hr, hf, -, hs⟩ | ⟨hr, hf, w, -, hs⟩ := s.fetch_cases
  · simp [hr, hs]
  all_goals simp [hr, hf, hs]

/-- R126 (c). -/
theorem State.fetch_fellOff_iff :
    s.fetch = .error .fellOff ↔
      s.runState = .running ∧ s.fault = none ∧ (s.pc.toInt < 0 ∨ (s.imem.length : Int) ≤ s.pc.toInt) := by
  rw [← Memory.word?_eq_none_iff]
  obtain ⟨hr, hs⟩ | ⟨hr, ⟨r, hf⟩, hs⟩ | ⟨hr, hf, hw, hs⟩ | ⟨hr, hf, w, hw, hs⟩ := s.fetch_cases
  · simp [hr, hs]
  · simp [hr, hf, hs]
  all_goals simp [hr, hf, hw, hs]

/-- R24 step 1: the fetch answers a word exactly when a step is possible. -/
theorem State.fetch_error_iff :
    (∃ f, s.fetch = .error f) ↔
      ¬(s.runState = .running ∧ s.fault = none ∧ 0 ≤ s.pc.toInt ∧ s.pc.toInt < s.imem.length) := by
  constructor
  · rintro ⟨f, hf⟩ ⟨hr, hn, hlo, hhi⟩
    cases f with
    | halted => simp [State.fetch_halted_iff.mp hf] at hr
    | decodeFailed => exact (State.fetch_decodeFailed_iff.mp hf).2 hn
    | fellOff =>
      obtain ⟨-, -, hpc⟩ := State.fetch_fellOff_iff.mp hf
      omega
  · intro hn
    cases hf : s.fetch with
    | error f => exact ⟨f, rfl⟩
    | ok w =>
      obtain ⟨hr, hnone, hw⟩ := State.fetch_ok_iff.mp hf
      exact absurd ⟨hr, hnone, Memory.word?_range hw⟩ hn

/-! ### The step (R24) -/

theorem step_of_decode_ok (hf : s.fetch = .ok w) (hd : decode w = .ok i) : step s = exec i s := by
  simp [step, hf, hd]

theorem step_of_decode_error {e : DecodeReject} (hf : s.fetch = .ok w) (hd : decode w = .error e) :
    step s = .next (s.raiseDecodeFailure w) := by
  simp [step, hf, hd, execUndecodable]

/-- R24 step 1: where the fetch answers a word, there is a next state. -/
theorem step_next_of_fetch_ok (hf : s.fetch = .ok w) : ∃ t, step s = .next t := by
  cases hd : decode w with
  | error e => exact ⟨_, step_of_decode_error hf hd⟩
  | ok i => exact step_of_decode_ok hf hd ▸ exec_next i s

/-- Only the fetch stops a step. R126. -/
theorem step_fault_iff {f : Fault} : step s = .fault f ↔ s.fetch = .error f := by
  cases hf : s.fetch with
  | error g => simp [step, hf]
  | ok w =>
    obtain ⟨t, ht⟩ := step_next_of_fetch_ok hf
    simp [ht]

/-- Everything a step on the word `w` can do to `s` when it answers a next state, with what the other pieces of state need to
know about it. R24 steps 2 to 7, R88 to R93. -/
inductive StepOutcome (s : State) (w : Word) : State → Prop where
  /-- R101. -/
  | decodeFailure (hw : decodable w = false) : StepOutcome s w (s.raiseDecodeFailure w)
  /-- An instruction other than `syscall`. -/
  | ordinary {t : State} (hw : w ≠ syscallWord) (hctl : SameControl s t) (hzero : t.regs[0] = 0#32) : StepOutcome s w t
  /-- Services 1 and 11. -/
  | service (hw : w = syscallWord) (e : Event) (hcode : s.serviceCode.toInt = 1 ∨ s.serviceCode.toInt = 11) :
    StepOutcome s w ((s.emit e).finish s.nextPc)
  /-- Service 10. -/
  | exit (hw : w = syscallWord) (hcode : s.serviceCode.toInt = 10) : StepOutcome s w s.halt
  /-- Every other service code. -/
  | unknown (hw : w = syscallWord) (h1 : s.serviceCode.toInt ≠ 1) (h10 : s.serviceCode.toInt ≠ 10)
    (h11 : s.serviceCode.toInt ≠ 11) : StepOutcome s w (s.emit (.unknownSyscall s.serviceCode)).halt

theorem StepOutcome.of_exec_syscall (h : exec .syscall s = .next t) : StepOutcome s syscallWord t := by
  obtain ⟨hc, he⟩ | ⟨hc, he⟩ | ⟨hc, he⟩ | ⟨h1, h10, h11, he⟩ := execSyscall_cases s
  all_goals cases he.symm.trans h
  · exact .service rfl _ (.inl hc)
  · exact .exit rfl hc
  · exact .service rfl _ (.inr hc)
  · exact .unknown rfl h1 h10 h11

theorem StepOutcome.of_exec (hd : decode w = .ok i) (h : exec i s = .next t) : StepOutcome s w t := by
  by_cases hi : i = .syscall
  · subst hi
    exact (decode_eq_syscall_iff w).mp hd ▸ of_exec_syscall h
  have hw : w ≠ syscallWord := by
    rintro rfl
    exact hi (Except.ok.inj (hd.symm.trans decode_syscallWord))
  obtain ⟨d, v, he⟩ | ⟨c, imm, -, he⟩ | ⟨hs, -⟩ := exec_cases i s
  · cases he.symm.trans h
    exact .ordinary hw ⟨rfl, rfl, rfl, rfl⟩ (s.retire_slot d v)
  · cases he.symm.trans h
    exact .ordinary hw ⟨rfl, rfl, rfl, rfl⟩ (s.branch_slot c imm)
  · exact absurd hs hi

/-- A step that answers a next state fetched a word and had one of the outcomes above. -/
theorem step_outcome (h : step s = .next t) : ∃ w, s.fetch = .ok w ∧ StepOutcome s w t := by
  obtain ⟨f, -, hs⟩ | ⟨w, e, hf, hd, hs⟩ | ⟨w, i, hf, hd, hs⟩ := step_cases s
  · cases hs.symm.trans h
  · cases hs.symm.trans h
    exact ⟨w, hf, .decodeFailure (decodable_of_error hd)⟩
  · exact ⟨w, hf, .of_exec hd (hs.symm.trans h)⟩

/-- R30: no step writes the program store. -/
theorem StepOutcome.imem_eq (h : StepOutcome s w t) : t.imem = s.imem := by
  cases h with
  | ordinary _ hctl =>
    obtain ⟨-, -, -, himem⟩ := hctl
    exact himem
  | _ => rfl

/-! ### The pc as an integer (R15, R70) -/

/-- R15: from an index of a program, no offset an instruction has makes the 32-bit pc wrap. -/
theorem pc_add_toInt {pc : PcIndex} {k : Int} (hlo : 0 ≤ pc.toInt) (hhi : pc.toInt < 1000) (klo : -32768 ≤ k)
    (khi : k ≤ 32767) : (pc + BitVec.ofInt 32 k).toInt = pc.toInt + k := by
  have hsum : pc + BitVec.ofInt 32 k = toI32 (pc.toInt + k) := by
    rw [toI32, BitVec.ofInt_add, BitVec.ofInt_toInt]
  rw [hsum, toI32_exact] <;> omega

/-- R31: a fetched word's index is in the program, so below its capacity. -/
theorem State.pc_range_of_fetch_ok (hwf : Memory.wf s.imem = true) (hf : s.fetch = .ok w) :
    0 ≤ s.pc.toInt ∧ s.pc.toInt < 1000 := by
  obtain ⟨-, -, hw⟩ := State.fetch_ok_iff.mp hf
  have hlen := (Memory.wf_iff _).mp hwf
  have hpc := Memory.word?_range hw
  omega

/-- R15: by how much the meaning of `i` advances the pc. -/
def State.pcOffset (s : State) : Instr → Int
  | .beq rs rt imm => if s.readReg rs = s.readReg rt then imm else 1
  | .bne rs rt imm => if s.readReg rs ≠ s.readReg rt then imm else 1
  | .syscall => if (s.readReg 2).toInt = 1 ∨ (s.readReg 2).toInt = 11 then 1 else 0
  | _ => 1

theorem State.pcOffset_of_dest (s : State) (hd : i.dest = some d) : s.pcOffset i = 1 := by
  cases i with
  | syscall | beq | bne => cases hd
  | _ => rfl

/-- R44: an offset is in the range of the signed immediate. -/
theorem State.pcOffset_range (s : State) (hwf : i.wf = true) : -32768 ≤ s.pcOffset i ∧ s.pcOffset i ≤ 32767 := by
  obtain ⟨d, hd⟩ | ⟨rs, rt, imm, rfl | rfl⟩ | rfl := i.dest_cases
  · simp [s.pcOffset_of_dest hd]
  · have himm := (immInRange_iff imm).mp hwf
    simp only [State.pcOffset]
    split <;> omega
  · have himm := (immInRange_iff imm).mp hwf
    simp only [State.pcOffset]
    split <;> omega
  · simp only [State.pcOffset]
    split <;> omega

theorem State.branchPc_eq (s : State) (c : Bool) (imm : Int) :
    s.branchPc c imm = s.pc + BitVec.ofInt 32 (if c then imm else 1) := by
  cases c <;> rfl

/-- R15, R70: every meaning adds its offset to the pc. -/
theorem exec_pc_eq (h : exec i s = .next t) : t.pc = s.pc + BitVec.ofInt 32 (s.pcOffset i) := by
  obtain ⟨d, hd⟩ | ⟨rs, rt, imm, rfl | rfl⟩ | rfl := i.dest_cases
  · obtain ⟨v, hv⟩ := exec_of_dest hd s
    cases hv.symm.trans h
    rw [s.pcOffset_of_dest hd]
    rfl
  · cases (exec_beq rs rt imm s).symm.trans h
    simp [State.branchPc_eq, State.pcOffset]
  · cases (exec_bne rs rt imm s).symm.trans h
    simp [State.branchPc_eq, State.pcOffset]
  · cases StepOutcome.of_exec_syscall h with
    | decodeFailure hw => simp [decodable_syscallWord] at hw
    | ordinary hw => exact absurd rfl hw
    | service _ _ hcode => simp [State.pcOffset, ← State.serviceCode_eq, hcode, State.nextPc]
    | exit _ hcode => simp [State.pcOffset, ← State.serviceCode_eq, hcode]
    | unknown _ h1 _ h11 => simp [State.pcOffset, ← State.serviceCode_eq, h1, h11]

/-- R15: as integers, and within the range of `State.Inv`. -/
theorem exec_pc_toInt (hlo : 0 ≤ s.pc.toInt) (hhi : s.pc.toInt < 1000) (hwf : i.wf = true)
    (h : exec i s = .next t) :
    t.pc.toInt = s.pc.toInt + s.pcOffset i ∧ -32768 ≤ t.pc.toInt ∧ t.pc.toInt ≤ 33766 := by
  obtain ⟨klo, khi⟩ := s.pcOffset_range hwf
  have hpc : t.pc.toInt = s.pc.toInt + s.pcOffset i := by rw [exec_pc_eq h, pc_add_toInt hlo hhi klo khi]
  omega

end Sys2Proof.Machine
end

section
/-! SUPPORT. The statements of the family 10_state, each from the lemmas above. -/

namespace Sys2Proof.Machine

/-! ### Registers (R10, R11, R13) -/

/-- Settles O37, by kind of instruction. -/
theorem onlyTheDestinationRegisterChanges : Obligations.OnlyTheDestinationRegisterChanges := by
  intro i s t r h hr
  obtain ⟨d, hd⟩ | ⟨rs, rt, imm, rfl | rfl⟩ | rfl := i.dest_cases
  · obtain ⟨v, hv⟩ := exec_of_dest hd s
    cases hv.symm.trans h
    have hrd : r ≠ d := fun e => hr (e ▸ hd)
    simp [State.readReg_retire, hrd]
  · cases (exec_beq rs rt imm s).symm.trans h
    exact s.readReg_branch _ _ r
  · cases (exec_bne rs rt imm s).symm.trans h
    exact s.readReg_branch _ _ r
  · obtain ⟨-, he⟩ | ⟨-, he⟩ | ⟨-, he⟩ | ⟨-, -, -, he⟩ := execSyscall_cases s
    all_goals
      cases he.symm.trans h
      simp

/-- Settles O35: a register other than 0 is not the destination, and register 0 reads 0 on both sides. -/
theorem registerZeroIsHardwired : Obligations.RegisterZeroIsHardwired := by
  refine ⟨State.readReg_zero, fun i s t hd h r => ?_⟩
  by_cases hr : r = 0
  · rw [hr, State.readReg_zero, State.readReg_zero]
  · exact onlyTheDestinationRegisterChanges i s t r h fun e => hr (Option.some.inj (e.symm.trans hd))

/-- Settles O36, by the outcomes of a step. -/
theorem completedStepClearsRegisterZero : Obligations.CompletedStepClearsRegisterZero := by
  intro s t h
  obtain ⟨w, hf, ho⟩ := step_outcome h
  obtain ⟨hrun, hnone, -⟩ := State.fetch_ok_iff.mp hf
  cases ho with
  | decodeFailure => exact ⟨fun _ hn => by simp at hn, fun _ => rfl⟩
  | ordinary _ hctl hzero =>
    obtain ⟨hr, hfault, -, -⟩ := hctl
    exact ⟨fun _ _ => hzero, by simp [hr, hrun, hfault, hnone]⟩
  | service => exact ⟨fun _ _ => State.finish_slot _ _, by simp [hrun, hnone]⟩
  | exit => exact ⟨fun hr => by simp at hr, fun _ => rfl⟩
  | unknown => exact ⟨fun hr => by simp at hr, fun _ => rfl⟩

/-- Settles O38, by kind of instruction: both states run the same operation with the same operands. -/
theorem instructionsReadOnlyTheirSources : Obligations.InstructionsReadOnlyTheirSources := by
  intro i a b ta tb hsrc hpc ha hb
  obtain ⟨d, hd⟩ | ⟨rs, rt, imm, hi⟩ | rfl := i.dest_cases
  · obtain ⟨v, hva, hvb⟩ := exec_dest_agree hd hsrc
    cases hva.symm.trans ha
    cases hvb.symm.trans hb
    refine ⟨fun d' hd' => ?_, by simp [hpc], ⟨[], by simp⟩, id⟩
    cases hd.symm.trans hd'
    by_cases h0 : d = 0 <;> simp [State.readReg_retire, h0]
  · obtain ⟨c, hca, hcb⟩ := exec_branch_agree hi hsrc
    cases hca.symm.trans ha
    cases hcb.symm.trans hb
    refine ⟨fun d hd => ?_, by simp [State.branchPc_eq, hpc], ⟨[], by simp⟩, id⟩
    obtain rfl | rfl := hi <;> cases hd
  · refine ⟨fun _ hd => (nomatch hd), ?_⟩
    obtain ⟨e, hea, heb⟩ | ⟨hea, heb⟩ | ⟨e, hea, heb⟩ := exec_syscall_agree hsrc
    all_goals
      cases hea.symm.trans ha
      cases heb.symm.trans hb
    · exact ⟨by simp [State.nextPc, hpc], ⟨[e], rfl, rfl⟩, id⟩
    · exact ⟨hpc, ⟨[], by simp⟩, fun _ => rfl⟩
    · exact ⟨hpc, ⟨[e], rfl, rfl⟩, fun _ => rfl⟩

/-! ### The step (R24, R126) -/

/-- Settles O31. -/
theorem stepRunsTheDecodedInstruction : Obligations.StepRunsTheDecodedInstruction := by
  intro s w i hrun hnone hpc hw hd
  have hword : Memory.word? s.imem s.pc.toInt = some w := by rw [Memory.word?, if_pos hpc, hw]
  exact step_of_decode_ok (State.fetch_ok_iff.mpr ⟨hrun, hnone, hword⟩) hd

/-- R24: a step answers a next state or the fetch's stop. -/
theorem step_ne_refused (s : State) (r : Refusal) : step s ≠ .refused r := by
  intro h
  cases hf : s.fetch with
  | error f => cases (step_fault_iff.mpr hf).symm.trans h
  | ok w =>
    obtain ⟨t, ht⟩ := step_next_of_fetch_ok hf
    cases ht.symm.trans h

/-- Settles O32: a step stops exactly where the fetch does. -/
theorem stepStopsExactlyInTerminalStates : Obligations.StepStopsExactlyInTerminalStates := by
  intro s
  simp only [step_fault_iff]
  exact ⟨State.fetch_error_iff, step_ne_refused s, State.fetch_halted_iff, State.fetch_decodeFailed_iff,
    State.fetch_fellOff_iff⟩

/-- Settles O39, by the outcomes of a step. -/
theorem onlyHaltingSyscallHalts : Obligations.OnlyHaltingSyscallHalts := by
  intro s t h
  obtain ⟨w, hf, ho⟩ := step_outcome h
  obtain ⟨hrun, -, -⟩ := State.fetch_ok_iff.mp hf
  refine ⟨hrun, ?_⟩
  rw [hf, ← State.serviceCode_eq]
  have hword : (Except.ok w : Except Fault Word) = .ok 0x0000000C#32 ↔ w = syscallWord := by
    rw [Except.ok.injEq, syscallWord]
  rw [hword]
  cases ho with
  | decodeFailure hw =>
    have hne : w ≠ syscallWord := by
      rintro rfl
      simp [decodable_syscallWord] at hw
    simp [hrun, hne]
  | ordinary hw hctl =>
    obtain ⟨hr, -⟩ := hctl
    simp [hr, hrun, hw]
  | service hw e hcode => obtain hc | hc := hcode <;> simp [hrun, hc]
  | exit hw hcode => simp [hw, hcode]
  | unknown hw h1 h10 h11 => simp [hw, h1, h10, h11]

/-- Settles O41, by the outcomes of a step. -/
theorem eventTraceIsAppendOnly : Obligations.EventTraceIsAppendOnly := by
  intro s t h
  obtain ⟨w, hf, ho⟩ := step_outcome h
  cases ho with
  | decodeFailure => exact .inl rfl
  | ordinary _ hctl =>
    obtain ⟨-, -, hout, -⟩ := hctl
    exact .inl hout
  | service hw e =>
    subst hw
    exact .inr ⟨hf, e, rfl⟩
  | exit => exact .inl rfl
  | unknown hw =>
    subst hw
    exact .inr ⟨hf, _, rfl⟩

/-- Settles O40: every meaning advances the pc by its offset, exactly; a decode failure keeps it. -/
theorem pcAdvancesExactly : Obligations.PcAdvancesExactly := by
  intro s t w hwf hf h
  obtain ⟨hlo, hhi⟩ := State.pc_range_of_fetch_ok hwf hf
  cases hd : decode w with
  | error e =>
    cases (step_of_decode_error hf hd).symm.trans h
    simp only [State.raiseDecodeFailure_pc]
    omega
  | ok i =>
    have hpc := exec_pc_toInt hlo hhi (decode_wf hd) (step_of_decode_ok hf hd ▸ h)
    cases i <;> exact hpc

/-! ### Reset and the invariant (R26, R120, R122) -/

/-- Settles O43. -/
theorem resetGivesTheInitialState : Obligations.ResetGivesTheInitialState := by
  have hregs (s : State) (r : RegIdx) : s.resetCore.readReg r = 0#32 := by
    simp [State.readReg, State.resetCore, State.reset]
  have hstop : step State.reset = .fault .fellOff :=
    step_fault_iff.mpr (State.fetch_fellOff_iff.mpr ⟨rfl, rfl, .inr le_rfl⟩)
  exact ⟨fun s => ⟨hregs s, rfl, rfl, rfl, rfl, rfl⟩, rfl, rfl, hstop⟩

/-- R122: the reset state with a program that fits has the invariant. -/
theorem inv_reset_with_imem {program : List Word} (h : program.length ≤ 1000) :
    State.Inv { State.reset with imem := program } where
  store := (Memory.wf_iff _).mpr h
  zero := rfl
  pcRange := show -32768 ≤ State.reset.pc.toInt ∧ State.reset.pc.toInt ≤ 33766 by decide
  halted h := by cases h
  faulted _ _ h := by cases h

/-- R103, R122: what the loader answers for an accepted program. -/
theorem boot_eq_ok_iff {program : List Word} {s : State} :
    boot program = .ok s ↔ program.length ≤ 1000 ∧ s = { State.reset with imem := program } := by
  unfold boot
  split
  next h => simp [show program.length ≤ 1000 from h, eq_comm]
  next h => simp [show ¬ program.length ≤ 1000 from h]

/-- Settles O44. -/
theorem resetAndBootMeetTheInvariant : Obligations.ResetAndBootMeetTheInvariant := by
  refine ⟨inv_reset_with_imem (program := []) (by decide), fun program s hboot => ?_⟩
  obtain ⟨hlen, rfl⟩ := boot_eq_ok_iff.mp hboot
  exact inv_reset_with_imem hlen

variable {s t : State} {w : Word}

/-- R11: a step leaves the zero slot zero. -/
theorem StepOutcome.zero_slot (ho : StepOutcome s w t) (hzero : s.regs[0] = 0#32) : t.regs[0] = 0#32 := by
  cases ho with
  | ordinary _ _ hz => exact hz
  | service => exact State.finish_slot _ _
  | _ => exact hzero

/-- R16: a step that leaves the core halted was a halting `syscall`. -/
theorem StepOutcome.haltedBySyscall (ho : StepOutcome s w t) (hf : s.fetch = .ok w) (ht : t.runState = .halted) :
    t.HaltedBySyscall := by
  obtain ⟨hrun, hnone, hw⟩ := State.fetch_ok_iff.mp hf
  have hne : s.runState ≠ .halted := by simp [hrun]
  cases ho with
  | decodeFailure => exact absurd ht hne
  | ordinary _ hctl =>
    obtain ⟨hr, -⟩ := hctl
    exact absurd (hr ▸ ht) hne
  | service => exact absurd ht hne
  | exit hs hcode => exact ⟨hnone, hs ▸ hw, .inl hcode⟩
  | unknown hs h1 h10 h11 => exact ⟨hnone, hs ▸ hw, .inr ⟨h1, h10, h11, List.getLast?_concat⟩⟩

/-- R17: a step that leaves a fault recorded failed to decode the word it fetched. -/
theorem StepOutcome.faultIsOf (ho : StepOutcome s w t) (hf : s.fetch = .ok w) {position : Nat} {word : Word}
    (ht : t.fault = some (.decodeFailure position word)) : t.FaultIsOf position word := by
  obtain ⟨hrun, hnone, hw⟩ := State.fetch_ok_iff.mp hf
  have hne : s.fault ≠ some (.decodeFailure position word) := by simp [hnone]
  cases ho with
  | decodeFailure hbad =>
    cases ht
    obtain ⟨hlo, hhi⟩ := Memory.word?_range hw
    have hpos : (s.position : Int) = s.pc.toInt + 1 := Int.toNat_of_nonneg (by omega)
    exact ⟨hrun, hw, hpos, by omega, show s.position ≤ s.imem.length by omega, hbad⟩
  | ordinary _ hctl =>
    obtain ⟨-, hfault, -⟩ := hctl
    exact absurd (hfault ▸ ht) hne
  | service => exact absurd ht hne
  | exit => exact absurd ht hne
  | unknown => exact absurd ht hne

/-- Settles O45, field by field, from the outcomes of a step and the pc's exact movement. -/
theorem everyStepKeepsTheInvariant : Obligations.EveryStepKeepsTheInvariant := by
  intro s t hinv h
  obtain ⟨w, hf, ho⟩ := step_outcome h
  obtain ⟨-, hrange⟩ := pcAdvancesExactly s t w hinv.store hf h
  exact {
    store := ho.imem_eq ▸ hinv.store
    zero := ho.zero_slot hinv.zero
    pcRange := hrange
    halted := ho.haltedBySyscall hf
    faulted := fun _ _ => ho.faultIsOf hf }

end Sys2Proof.Machine
end

section
/-! SUPPORT. The statements of the family 20_memory: what holds along any number of steps. -/

namespace Sys2Proof.Machine

variable {n : Nat} {s t : State}

/-! ### Runs of the core -/

/-- `n + 1` steps reach `t` exactly when the first has a next state from which `n` steps reach it. -/
theorem run_succ_eq_next_iff {M : Host.Core} {s t : M.State} :
    M.run (n + 1) s = .next t ↔ ∃ u, M.step s = .next u ∧ M.run n u = .next t := by
  rw [Host.Core.run]
  cases M.step s <;> simp

/-- What every step keeps, any number of steps keeps. -/
theorem run_keeps {P : State → Prop} (hstep : ∀ a b, step a = .next b → P a → P b)
    (h : Host.Core.run Sys2Proof.core n s = .next t) (hs : P s) : P t := by
  induction n generalizing s with
  | zero =>
    cases h
    exact hs
  | succ n ih =>
    obtain ⟨u, hu, hrun⟩ := run_succ_eq_next_iff.mp h
    exact ih hrun (hstep s u hu hs)

/-! ### The program store and the trace (R30, R31, R18) -/

theorem step_imem_eq (h : step s = .next t) : t.imem = s.imem := by
  obtain ⟨w, -, ho⟩ := step_outcome h
  exact ho.imem_eq

/-- R18: a step's trace begins with the trace before it. -/
theorem step_extends_out (h : step s = .next t) : s.out <+: t.out := by
  obtain hout | ⟨-, e, hout⟩ := eventTraceIsAppendOnly s t h
  · rw [hout]
  · exact ⟨[e], hout.symm⟩

theorem run_imem_eq (h : Host.Core.run Sys2Proof.core n s = .next t) : t.imem = s.imem :=
  run_keeps (P := fun u => u.imem = s.imem) (fun _ _ hab ha => (step_imem_eq hab).trans ha) h rfl

theorem run_extends_out (h : Host.Core.run Sys2Proof.core n s = .next t) : s.out <+: t.out :=
  run_keeps (P := fun u => s.out <+: u.out) (fun _ _ hab ha => ha.trans (step_extends_out hab)) h ⟨[], List.append_nil _⟩

/-- Settles O42: every step keeps the store and the beginning of the trace, so every run does. -/
theorem runsNeverChangeTheProgram : Obligations.RunsNeverChangeTheProgram := by
  intro n s t h
  have himem : t.imem = s.imem := run_imem_eq h
  obtain ⟨es, hout⟩ := run_extends_out h
  exact ⟨fun k => by rw [himem], by rw [himem], es, hout.symm⟩

end Sys2Proof.Machine
end

section
/-! SUPPORT. The statements of the family 30_encoding: the fields as formulas, when a word is read as an instruction, and the
canonical word beside the word it was read from (spec/30_encoding.md R41 to R55). -/

namespace Sys2Proof

/-! ### The fields and the signed immediate as formulas (R41, R42, R44) -/

/-- R41, R42: a field is the word shifted down and masked. -/
theorem extractLsb'_toNat_eq_shift_and_mask (w : Word) (a n : Nat) :
    (w.extractLsb' a n).toNat = (w.toNat >>> a) &&& (2 ^ n - 1) := by
  rw [BitVec.extractLsb'_toNat, Nat.and_two_pow_sub_one_eq_mod]

/-- R44, C1: at the threshold 32768 the signed immediate is the two's-complement reading. -/
theorem sext16_eq_toInt (raw : BitVec 16) : sext16 raw = raw.toInt := by
  rw [sext16_eq, BitVec.toInt_eq_toNat_cond]
  split <;> split <;> omega

/-- D1: the bug-compatible threshold gives another value for `0x7FFF` and for no other immediate. -/
theorem sext16At_32767_eq_sext16_iff (raw : BitVec 16) : sext16At 32767 raw = sext16 raw ↔ raw ≠ 0x7FFF#16 := by
  have hne : raw ≠ 0x7FFF#16 ↔ raw.toNat ≠ 32767 := BitVec.toNat_ne
  rw [hne, sext16_eq, sext16At]
  split <;> split <;> omega

/-- R55: `imm mod 65536` gives back the raw immediate that `imm` was read from. -/
theorem immBits_sext16 (raw : BitVec 16) : immBits (sext16 raw) = raw := by
  rw [sext16_eq_toInt]
  exact BitVec.ofInt_toInt

/-! ### When a word is read as an instruction (R45 to R48) -/

/-- The test by which the decoder reads `w` as this instruction, and the fields that give its operands. R46 to R48. -/
def Instr.ReadFrom (w : Word) : Instr → Prop
  | .syscall => w = syscallWord
  | .add d s t => opcodeField w = 0#6 ∧ functField w = 0x20#6 ∧ d = dField w ∧ s = sField w ∧ t = tField w
  | .sub d s t => opcodeField w = 0#6 ∧ functField w = 0x22#6 ∧ d = dField w ∧ s = sField w ∧ t = tField w
  | .and d s t => opcodeField w = 0#6 ∧ functField w = 0x24#6 ∧ d = dField w ∧ s = sField w ∧ t = tField w
  | .or d s t => opcodeField w = 0#6 ∧ functField w = 0x25#6 ∧ d = dField w ∧ s = sField w ∧ t = tField w
  | .slt d s t => opcodeField w = 0#6 ∧ functField w = 0x2A#6 ∧ d = dField w ∧ s = sField w ∧ t = tField w
  | .mul d s t => opcodeField w = 0x1C#6 ∧ d = dField w ∧ s = sField w ∧ t = tField w
  | .beq s t imm => opcodeField w = 0x04#6 ∧ s = sField w ∧ t = tField w ∧ imm = immField w
  | .bne s t imm => opcodeField w = 0x05#6 ∧ s = sField w ∧ t = tField w ∧ imm = immField w
  | .addi t s imm => opcodeField w = 0x08#6 ∧ s = sField w ∧ t = tField w ∧ imm = immField w
  | .slti t s imm => opcodeField w = 0x0A#6 ∧ s = sField w ∧ t = tField w ∧ imm = immField w
  | .andi t s raw => opcodeField w = 0x0C#6 ∧ s = sField w ∧ t = tField w ∧ raw = rawImmField w
  | .ori t s raw => opcodeField w = 0x0D#6 ∧ s = sField w ∧ t = tField w ∧ raw = rawImmField w
  | .lui t raw => opcodeField w = 0x0F#6 ∧ t = tField w ∧ raw = rawImmField w

theorem decode_of_readFrom {w : Word} {i : Instr} (h : i.ReadFrom w) : decode w = .ok i := by
  cases i with
  | syscall =>
    cases h
    exact decode_syscallWord
  | add | sub | and | or | slt =>
    obtain ⟨hop, hfunct, rfl, rfl, rfl⟩ := h
    rw [decode_of_funct hop (by simp [hfunct])]
    simp [decodeFunct, hfunct]
  | mul | beq | bne | addi | slti | andi | ori =>
    obtain ⟨hop, rfl, rfl, rfl⟩ := h
    rw [decode_of_opcode (by simp [hop])]
    simp [decodeOpcode, hop]
  | lui =>
    obtain ⟨hop, rfl, rfl⟩ := h
    rw [decode_of_opcode (by simp [hop])]
    simp [decodeOpcode, hop]

theorem readFrom_of_decode {w : Word} {i : Instr} (h : decode w = .ok i) : i.ReadFrom w := by
  obtain ⟨rfl, rfl⟩ | ⟨hop, hrow⟩ | hrow := decode_cases h
  · rfl
  · obtain ⟨hf, rfl⟩ | ⟨hf, rfl⟩ | ⟨hf, rfl⟩ | ⟨hf, rfl⟩ | ⟨hf, rfl⟩ := hrow
    all_goals exact ⟨hop, hf, rfl, rfl, rfl⟩
  · obtain ⟨hop, rfl⟩ | ⟨hop, rfl⟩ | ⟨hop, rfl⟩ | ⟨hop, rfl⟩ | ⟨hop, rfl⟩ | ⟨hop, rfl⟩ | ⟨hop, rfl⟩ | ⟨hop, rfl⟩ := hrow
    case inr.inr.inr.inr.inr.inr.inr => exact ⟨hop, rfl, rfl⟩
    all_goals exact ⟨hop, rfl, rfl, rfl⟩

/-- R45: the decoder reads `w` as `i` exactly when `w` passes the test of `i` and its fields are the operands of `i`. -/
theorem decode_eq_ok_iff {w : Word} {i : Instr} : decode w = .ok i ↔ i.ReadFrom w :=
  ⟨readFrom_of_decode, decode_of_readFrom⟩

/-- R49: the words that the tests of R46 to R48 match. -/
def InOpcodeMap (w : Word) : Prop :=
  w = 0x0000000C#32 ∨
    (opcodeField w = 0#6 ∧ functField w ∈ [0x20#6, 0x22#6, 0x24#6, 0x25#6, 0x2A#6]) ∨
    opcodeField w ∈ [0x1C#6, 0x04#6, 0x05#6, 0x08#6, 0x0A#6, 0x0C#6, 0x0D#6, 0x0F#6]

theorem inOpcodeMap_of_readFrom {w : Word} {i : Instr} (h : i.ReadFrom w) : InOpcodeMap w := by
  cases i with
  | syscall => exact .inl h
  | add | sub | and | or | slt =>
    obtain ⟨hop, hfunct, -⟩ := h
    exact .inr (.inl ⟨hop, by simp [hfunct]⟩)
  | mul | beq | bne | addi | slti | andi | ori | lui =>
    obtain ⟨hop, -⟩ := h
    exact .inr (.inr (by simp [hop]))

theorem exists_readFrom_of_inOpcodeMap {w : Word} (h : InOpcodeMap w) : ∃ i : Instr, i.ReadFrom w := by
  obtain h | ⟨hop, hfunct⟩ | hop := h
  · exact ⟨.syscall, h⟩
  · simp only [List.mem_cons, List.not_mem_nil, or_false] at hfunct
    obtain h | h | h | h | h := hfunct
    · exact ⟨.add _ _ _, hop, h, rfl, rfl, rfl⟩
    · exact ⟨.sub _ _ _, hop, h, rfl, rfl, rfl⟩
    · exact ⟨.and _ _ _, hop, h, rfl, rfl, rfl⟩
    · exact ⟨.or _ _ _, hop, h, rfl, rfl, rfl⟩
    · exact ⟨.slt _ _ _, hop, h, rfl, rfl, rfl⟩
  · simp only [List.mem_cons, List.not_mem_nil, or_false] at hop
    obtain h | h | h | h | h | h | h | h := hop
    · exact ⟨.mul _ _ _, h, rfl, rfl, rfl⟩
    · exact ⟨.beq _ _ _, h, rfl, rfl, rfl⟩
    · exact ⟨.bne _ _ _, h, rfl, rfl, rfl⟩
    · exact ⟨.addi _ _ _, h, rfl, rfl, rfl⟩
    · exact ⟨.slti _ _ _, h, rfl, rfl, rfl⟩
    · exact ⟨.andi _ _ _, h, rfl, rfl, rfl⟩
    · exact ⟨.ori _ _ _, h, rfl, rfl, rfl⟩
    · exact ⟨.lui _ _, h, rfl, rfl⟩

/-- R49: `Decode(w) = Fail` says that `w` decodes to no instruction. -/
theorem decode_error_iff {w : Word} : (∃ e, decode w = .error e) ↔ ¬ ∃ i, decode w = .ok i := by
  cases decode w <;> simp

/-- R49: a word decodes exactly when one of the tests of R46 to R48 matches it. -/
theorem exists_decode_eq_ok_iff {w : Word} : (∃ i, decode w = .ok i) ↔ InOpcodeMap w := by
  simp only [decode_eq_ok_iff]
  exact ⟨fun ⟨_, hi⟩ => inOpcodeMap_of_readFrom hi, exists_readFrom_of_inOpcodeMap⟩

/-! ### Ignored bits (R51) -/

/-- R51: words that agree outside the ignored bits of an instruction are read as it alike. -/
theorem readFrom_of_agree {w v : Word} {i : Instr} (hi : i.ReadFrom w)
    (h : v &&& ~~~i.ignoredMask = w &&& ~~~i.ignoredMask) : i.ReadFrom v := by
  cases i with
  | syscall | beq | bne | addi | slti | andi | ori =>
    have hvw : v = w := by simpa only [Instr.ignoredMask, BitVec.not_zero, BitVec.and_allOnes] using h
    exact hvw ▸ hi
  | add | sub | and | or | slt =>
    replace h : v &&& ~~~0x000007C0#32 = w &&& ~~~0x000007C0#32 := h
    have hop : opcodeField v = opcodeField w := extractLsb'_of_mask h (by decide)
    have hfunct : functField v = functField w := extractLsb'_of_mask h (by decide)
    have hd : dField v = dField w := congrArg BitVec.toFin (extractLsb'_of_mask h (by decide))
    have hs : sField v = sField w := congrArg BitVec.toFin (extractLsb'_of_mask h (by decide))
    have ht : tField v = tField w := congrArg BitVec.toFin (extractLsb'_of_mask h (by decide))
    simpa only [Instr.ReadFrom, hop, hfunct, hd, hs, ht] using hi
  | mul =>
    replace h : v &&& ~~~0x000007FF#32 = w &&& ~~~0x000007FF#32 := h
    have hop : opcodeField v = opcodeField w := extractLsb'_of_mask h (by decide)
    have hd : dField v = dField w := congrArg BitVec.toFin (extractLsb'_of_mask h (by decide))
    have hs : sField v = sField w := congrArg BitVec.toFin (extractLsb'_of_mask h (by decide))
    have ht : tField v = tField w := congrArg BitVec.toFin (extractLsb'_of_mask h (by decide))
    simpa only [Instr.ReadFrom, hop, hd, hs, ht] using hi
  | lui =>
    replace h : v &&& ~~~0x03E00000#32 = w &&& ~~~0x03E00000#32 := h
    have hop : opcodeField v = opcodeField w := extractLsb'_of_mask h (by decide)
    have hraw : rawImmField v = rawImmField w := extractLsb'_of_mask h (by decide)
    have ht : tField v = tField w := congrArg BitVec.toFin (extractLsb'_of_mask h (by decide))
    simpa only [Instr.ReadFrom, hop, hraw, ht] using hi

/-! ### The canonical word beside the word that was read (R50, R55, D10) -/

/-- Masking a packed word masks its fields one by one. R50. -/
theorem packImm_and_packImm (op op' : BitVec 6) (s s' t t' : BitVec 5) (raw raw' : BitVec 16) :
    packImm op s t raw &&& packImm op' s' t' raw' = packImm (op &&& op') (s &&& s') (t &&& t') (raw &&& raw') := by
  have h : (op ++ s ++ t ++ raw) &&& (op' ++ s' ++ t' ++ raw') =
      (op &&& op') ++ (s &&& s') ++ (t &&& t') ++ (raw &&& raw') := by
    simp only [BitVec.and_append]
  exact h

/-- A mask of whole fields cuts a word field by field. R50. -/
theorem and_packImm (w : Word) (op : BitVec 6) (s t : BitVec 5) (raw : BitVec 16) :
    w &&& packImm op s t raw =
      packImm (opcodeField w &&& op) (regBits (sField w) &&& s) (regBits (tField w) &&& t) (rawImmField w &&& raw) := by
  rw [← packImm_and_packImm, packImm_fields]

/-- Packing the register fields of a word, and what `m` keeps of its `funct`, clears bits 10:6 and the rest of `funct`. R50. -/
theorem packReg_fields_eq_and {mask : Word} {m : BitVec 6} (w : Word)
    (hmask : mask = packImm (BitVec.allOnes 6) (BitVec.allOnes 5) (BitVec.allOnes 5) (BitVec.allOnes 5 ++ 0#5 ++ m)) :
    packReg (opcodeField w) (dField w) (sField w) (tField w) (functField w &&& m) = w &&& mask := by
  rw [hmask, and_packImm, ← rawImmField_eq_append, BitVec.and_append, BitVec.and_append]
  simp only [BitVec.and_allOnes, BitVec.and_zero, packReg]

/-- Packing the fields of a word other than `s` clears bits 25:21. R50. -/
theorem packImm_fields_without_s_eq_and {mask : Word} (w : Word)
    (hmask : mask = packImm (BitVec.allOnes 6) 0#5 (BitVec.allOnes 5) (BitVec.allOnes 16)) :
    packImm (opcodeField w) 0#5 (regBits (tField w)) (rawImmField w) = w &&& mask := by
  rw [hmask, and_packImm]
  simp only [BitVec.and_allOnes, BitVec.and_zero]

/-- R55, D10: the canonical word of an instruction is the word it was read from with the ignored bits cleared. -/
theorem encode_eq_clear_ignored {w : Word} {i : Instr} (h : i.ReadFrom w) : encode i = w &&& ~~~i.ignoredMask := by
  cases i with
  | syscall =>
    cases h
    decide
  | add | sub | and | or | slt =>
    obtain ⟨hop, hfunct, rfl, rfl, rfl⟩ := h
    refine Eq.trans ?_ (packReg_fields_eq_and (mask := ~~~0x000007C0#32) (m := 0x3F#6) w (by decide))
    rw [hop, hfunct]
    rfl
  | mul =>
    obtain ⟨hop, rfl, rfl, rfl⟩ := h
    refine Eq.trans ?_ (packReg_fields_eq_and (mask := ~~~0x000007FF#32) (m := 0#6) w (by decide))
    rw [hop, BitVec.and_zero]
    rfl
  | beq | bne | addi | slti =>
    obtain ⟨hop, rfl, rfl, rfl⟩ := h
    simp only [encode, immField, immBits_sext16, ← hop, packImm_fields, Instr.ignoredMask, BitVec.not_zero,
      BitVec.and_allOnes]
  | andi | ori =>
    obtain ⟨hop, rfl, rfl, rfl⟩ := h
    simp only [encode, ← hop, packImm_fields, Instr.ignoredMask, BitVec.not_zero, BitVec.and_allOnes]
  | lui =>
    obtain ⟨hop, rfl, rfl⟩ := h
    refine Eq.trans ?_ (packImm_fields_without_s_eq_and (mask := ~~~0x03E00000#32) w (by decide))
    rw [hop]
    rfl

/-- Clearing the bits of `m` leaves `w` as it is exactly when `w` has none of them. -/
theorem and_not_eq_self_iff (w m : Word) : w &&& ~~~m = w ↔ w &&& m = 0#32 := by
  constructor
  · intro h
    rw [← h, BitVec.and_assoc, BitVec.not_and_self]
    exact BitVec.and_zero
  · intro h
    calc w &&& ~~~m = (w &&& m) ||| (w &&& ~~~m) := by rw [h, BitVec.zero_or]
      _ = w := by rw [← BitVec.and_or_distrib_left, BitVec.or_not_self, BitVec.and_allOnes]

/-- R55: decoding the canonical word of a well-formed instruction gives it back. -/
theorem decode_encode {i : Instr} (h : i.wf = true) : decode (encode i) = .ok i := by
  cases i with
  | syscall => exact Laws.RoundTrip.syscall h
  | add d s t => exact Laws.RoundTrip.add d s t h
  | sub d s t => exact Laws.RoundTrip.sub d s t h
  | and d s t => exact Laws.RoundTrip.and d s t h
  | or d s t => exact Laws.RoundTrip.or d s t h
  | slt d s t => exact Laws.RoundTrip.slt d s t h
  | mul d s t => exact Laws.RoundTrip.mul d s t h
  | beq s t imm => exact Laws.RoundTrip.beq s t imm h
  | bne s t imm => exact Laws.RoundTrip.bne s t imm h
  | addi t s imm => exact Laws.RoundTrip.addi t s imm h
  | slti t s imm => exact Laws.RoundTrip.slti t s imm h
  | andi t s raw => exact Laws.RoundTrip.andi t s raw h
  | ori t s raw => exact Laws.RoundTrip.ori t s raw h
  | lui t raw => exact Laws.RoundTrip.lui t raw h

/-! ### The encoder as formulas (R55) -/

theorem setWidth_regBits (r : RegIdx) : (regBits r).setWidth 32 = BitVec.ofNat 32 r.val :=
  (BitVec.ofNat_toNat 32 (regBits r)).symm

/-- R55: `imm mod 65536` as a word. -/
theorem setWidth_immBits (imm : Int) : (immBits imm).setWidth 32 = BitVec.ofInt 32 (imm % 65536) := by
  apply BitVec.eq_of_toNat_eq
  simp only [immBits, BitVec.toNat_setWidth, BitVec.toNat_ofInt]
  omega

/-- R55: formats B, I and U. -/
theorem packImm_eq_or (op : BitVec 6) (s t : BitVec 5) (raw : BitVec 16) :
    packImm op s t raw =
      op.setWidth 32 <<< 26 ||| s.setWidth 32 <<< 21 ||| t.setWidth 32 <<< 16 ||| raw.setWidth 32 := by
  have h : (op ++ s ++ t ++ raw).setWidth 32 = _ := BitVec.setWidth_append_append_append_eq_shiftLeft_setWidth_or
  exact (BitVec.setWidth_eq _).symm.trans h

/-- R55: formats R and M. -/
theorem packReg_eq_or (op : BitVec 6) (d s t : RegIdx) (funct : BitVec 6) :
    packReg op d s t funct =
      op.setWidth 32 <<< 26 ||| (regBits s).setWidth 32 <<< 21 ||| (regBits t).setWidth 32 <<< 16 |||
        (regBits d).setWidth 32 <<< 11 ||| funct.setWidth 32 := by
  rw [packReg, packImm_eq_or, BitVec.setWidth_append_append_eq_shiftLeft_setWidth_or]
  simp [BitVec.or_assoc]

/-! ### The statements -/

/-- Settles O3: the canonical word is the word that was read with its ignored bits cleared. -/
theorem decodeInvertsEncode : Obligations.DecodeInvertsEncode := by
  refine ⟨fun i => decode_encode, fun w i h => ?_⟩
  rw [encode_eq_clear_ignored (decode_eq_ok_iff.mp h)]
  exact and_not_eq_self_iff w i.ignoredMask

/-- Settles O2, by the threshold's comparison and the two's-complement reading of 16 bits. -/
theorem signedImmediateIsTwosComplement : Obligations.SignedImmediateIsTwosComplement := by
  intro raw
  obtain ⟨hlo, hhi⟩ := sext16_range raw
  refine ⟨sext16_eq_toInt raw, hlo, hhi, ?_, sext16At_32767_eq_sext16_iff raw, rfl⟩
  rw [sext16_eq]
  split <;> split <;> omega

/-- Settles O4: each canonical word is the OR of its fields in place. -/
theorem encoderIsTheFormulas : Obligations.EncoderIsTheFormulas := by
  intro d s t imm raw
  simp [encode, packReg_eq_or, packImm_eq_or, setWidth_regBits, setWidth_immBits, syscallWord]

/-- Settles O5: a signed immediate is always read by `sext16`. -/
theorem decodedInstructionsAreWellFormed : Obligations.DecodedInstructionsAreWellFormed :=
  fun _ _ => decode_wf

/-- Settles O6: no test but that of the `syscall` word accepts opcode 0 with funct `0x0C`. -/
theorem syscallIsOneWord : Obligations.SyscallIsOneWord := by
  refine ⟨decode_eq_syscall_iff, fun w hop hfunct hne => ?_⟩
  rw [decode_error_iff, exists_decode_eq_ok_iff]
  rintro (h | ⟨-, h⟩ | h)
  · exact hne h
  · simp [hfunct] at h
  · simp [hop] at h

/-- Settles O7: a word fails exactly when no instruction's test accepts it. -/
theorem decodeFailsExactlyOutsideTheMap : Obligations.DecodeFailsExactlyOutsideTheMap :=
  fun _ => decode_error_iff.trans (not_congr exists_decode_eq_ok_iff)

/-- Settles O8: the test and the operands of an instruction lie outside its ignored bits. -/
theorem ignoredBitsNeverMatter : Obligations.IgnoredBitsNeverMatter :=
  fun _ _ _ hw h => decode_eq_ok_iff.mpr (readFrom_of_agree (decode_eq_ok_iff.mp hw) h)

/-- Settles O1, field by field. -/
theorem fieldsAreShiftAndMask : Obligations.FieldsAreShiftAndMask :=
  fun w => ⟨extractLsb'_toNat_eq_shift_and_mask w 26 6, extractLsb'_toNat_eq_shift_and_mask w 21 5,
    extractLsb'_toNat_eq_shift_and_mask w 16 5, extractLsb'_toNat_eq_shift_and_mask w 11 5⟩

/-- Settles O9: each word is evaluated. -/
theorem writtenOutWordsDecode : Obligations.WrittenOutWordsDecode := by
  unfold Obligations.WrittenOutWordsDecode
  decide

end Sys2Proof
end

section
/-! SUPPORT. The statements of the family 40_register_register: the value each instruction writes to its destination, the frame
of that write, and its arithmetic (spec/40_register_register.md R60 to R67). -/

namespace Sys2Proof

/-- R47, R50: a mask of the opcode and the `funct` of a format R word fixes both. -/
theorem opcode_funct_of_mask {w v : Word} (h : w &&& 0xFC00003F#32 = v) :
    opcodeField w = opcodeField v ∧ functField w = functField v :=
  ⟨opcodeField_of_mask h (by decide), functField_of_mask h (by decide)⟩

end Sys2Proof

namespace Sys2Proof.Machine

/-! ### The value each instruction writes (R61 to R66, R76 to R79) -/

section

variable (d s t : RegIdx) (imm : Int) (raw : BitVec 16) (st : State)

theorem exec_add :
    exec (.add d s t) st = .next (st.retire d (toI32 ((st.readReg s).toInt + (st.readReg t).toInt))) := rfl

theorem exec_sub :
    exec (.sub d s t) st = .next (st.retire d (toI32 ((st.readReg s).toInt - (st.readReg t).toInt))) := rfl

theorem exec_mul :
    exec (.mul d s t) st = .next (st.retire d (toI32 ((st.readReg s).toInt * (st.readReg t).toInt))) := rfl

theorem exec_and : exec (.and d s t) st = .next (st.retire d (st.readReg s &&& st.readReg t)) := rfl

theorem exec_or : exec (.or d s t) st = .next (st.retire d (st.readReg s ||| st.readReg t)) := rfl

theorem exec_slt :
    exec (.slt d s t) st = .next (st.retire d (boolWord (decide ((st.readReg s).toInt < (st.readReg t).toInt)))) := rfl

theorem exec_addi : exec (.addi t s imm) st = .next (st.retire t (toI32 ((st.readReg s).toInt + imm))) := rfl

theorem exec_slti :
    exec (.slti t s imm) st = .next (st.retire t (boolWord (decide ((st.readReg s).toInt < imm)))) := rfl

theorem exec_andi : exec (.andi t s raw) st = .next (st.retire t (st.readReg s &&& raw.setWidth 32)) := rfl

theorem exec_ori : exec (.ori t s raw) st = .next (st.retire t (st.readReg s ||| raw.setWidth 32)) := rfl

end

/-! ### The write of a destination (R11, R24 steps 5 to 7) -/

/-- Retiring with `v` for `x[d]` writes that register, advances the pc, and changes nothing else. -/
theorem State.writesReg_retire (st : State) (d : RegIdx) (v : Word) : WritesReg st (st.retire d v) d v := by
  refine ⟨fun i => ?_, rfl, rfl, rfl, rfl, rfl⟩
  rw [State.readReg_retire]
  by_cases hi : i = d
  · rw [hi]
  · simp [hi]

/-- A meaning that retires with `v` leaves `v` in a destination other than register 0. -/
theorem readReg_dest_of_exec {i : Instr} {d : RegIdx} {st u : State} {v : Word}
    (hv : exec i st = .next (st.retire d v)) (hd : d ≠ 0) (h : exec i st = .next u) : u.readReg d = v := by
  cases hv.symm.trans h
  rw [State.readReg_retire, if_pos ⟨rfl, hd⟩]

/-! ### The written value beside the exact one (R65, R67) -/

/-- R67: narrowing an exact result changes it by a multiple of `2^32`, and not at all where it fits. -/
theorem toI32_wraps (e : Int) :
    (∃ k : Int, (toI32 e).toInt = e + k * 2 ^ 32) ∧ (-2 ^ 31 ≤ e → e ≤ 2 ^ 31 - 1 → (toI32 e).toInt = e) :=
  ⟨toI32_multiple e, toI32_exact⟩

/-- R65, R77: a comparison's result is 1 where it is true and 0 where it is false. -/
theorem boolWord_decide (p : Prop) [Decidable p] : boolWord (decide p) = if p then 1#32 else 0#32 := by
  by_cases h : p <;> simp [boolWord, h]

/-! ### The statements -/

/-- Settles O25: every value written is the exact result narrowed, a bitwise result, or the word of a comparison. -/
theorem arithmeticWrapsModulo32Bits : Obligations.ArithmeticWrapsModulo32Bits := by
  refine ⟨fun d s t imm st u i e hi hd h => ?_, fun d s t raw st u k hd _ => ⟨?_, ?_, ?_, ?_⟩,
    fun d s t imm st u hd h => ?_⟩
  · have hv : exec i st = .next (st.retire d (toI32 e)) := by
      obtain ⟨rfl, rfl⟩ | ⟨rfl, rfl⟩ | ⟨rfl, rfl⟩ | ⟨rfl, rfl⟩ := hi
      · exact exec_add d s t st
      · exact exec_sub d s t st
      · exact exec_mul d s t st
      · exact exec_addi s d imm st
    rw [readReg_dest_of_exec hv hd h]
    exact toI32_wraps e
  · intro h
    rw [readReg_dest_of_exec (exec_and d s t st) hd h, BitVec.getLsbD_and]
  · intro h
    rw [readReg_dest_of_exec (exec_or d s t st) hd h, BitVec.getLsbD_or]
  · intro h
    rw [readReg_dest_of_exec (exec_andi s d raw st) hd h, BitVec.getLsbD_and]
  · intro h
    rw [readReg_dest_of_exec (exec_ori s d raw st) hd h, BitVec.getLsbD_or]
  · obtain h | h := h
    · rw [readReg_dest_of_exec (exec_slt d s t st) hd h]
      exact boolWord_cases _
    · rw [readReg_dest_of_exec (exec_slti s d imm st) hd h]
      exact boolWord_cases _

/-- Settles O10: the word's `funct` selects `add`, which retires with the narrowed sum. -/
theorem addWritesWrappedSum : Obligations.AddWritesWrappedSum := by
  refine ⟨fun w h => ?_, fun d s t st => ⟨_, exec_add d s t st, st.writesReg_retire d _⟩⟩
  obtain ⟨hop, hfunct⟩ : opcodeField w = 0#6 ∧ functField w = 0x20#6 := opcode_funct_of_mask h
  exact decode_of_readFrom ⟨hop, hfunct, rfl, rfl, rfl⟩

/-- Settles O11: the word's `funct` selects `sub`, which retires with the narrowed difference. -/
theorem subWritesWrappedDifference : Obligations.SubWritesWrappedDifference := by
  refine ⟨fun w h => ?_, fun d s t st => ⟨_, exec_sub d s t st, st.writesReg_retire d _⟩⟩
  obtain ⟨hop, hfunct⟩ : opcodeField w = 0#6 ∧ functField w = 0x22#6 := opcode_funct_of_mask h
  exact decode_of_readFrom ⟨hop, hfunct, rfl, rfl, rfl⟩

/-- Settles O12: the word's `funct` selects `and`, which retires with the AND of the two words. -/
theorem andWritesBitwiseAnd : Obligations.AndWritesBitwiseAnd := by
  refine ⟨fun w h => ?_, fun d s t st =>
    ⟨_, _, exec_and d s t st, st.writesReg_retire d _, fun _ _ => BitVec.getLsbD_and⟩⟩
  obtain ⟨hop, hfunct⟩ : opcodeField w = 0#6 ∧ functField w = 0x24#6 := opcode_funct_of_mask h
  exact decode_of_readFrom ⟨hop, hfunct, rfl, rfl, rfl⟩

/-- Settles O13: the word's `funct` selects `or`, which retires with the OR of the two words. -/
theorem orWritesBitwiseOr : Obligations.OrWritesBitwiseOr := by
  refine ⟨fun w h => ?_, fun d s t st =>
    ⟨_, _, exec_or d s t st, st.writesReg_retire d _, fun _ _ => BitVec.getLsbD_or⟩⟩
  obtain ⟨hop, hfunct⟩ : opcodeField w = 0#6 ∧ functField w = 0x25#6 := opcode_funct_of_mask h
  exact decode_of_readFrom ⟨hop, hfunct, rfl, rfl, rfl⟩

/-- Settles O14: the word's `funct` selects `slt`, which retires with the word of the comparison. -/
theorem sltWritesSignedComparison : Obligations.SltWritesSignedComparison := by
  refine ⟨fun w h => ?_, fun d s t st => ⟨_, exec_slt d s t st, ?_⟩⟩
  · obtain ⟨hop, hfunct⟩ : opcodeField w = 0#6 ∧ functField w = 0x2A#6 := opcode_funct_of_mask h
    exact decode_of_readFrom ⟨hop, hfunct, rfl, rfl, rfl⟩
  · rw [← boolWord_decide]
    exact st.writesReg_retire d _

/-- Settles O15: `mul` has an opcode of its own, so its mask leaves out `funct`. -/
theorem mulWritesLowProduct : Obligations.MulWritesLowProduct := by
  refine ⟨fun w h => ?_, fun d s t st => ⟨_, exec_mul d s t st, st.writesReg_retire d _⟩⟩
  have hop : opcodeField w = 0x1C#6 := opcodeField_of_mask h (by decide)
  exact decode_of_readFrom ⟨hop, rfl, rfl, rfl⟩

end Sys2Proof.Machine
end

section
/-! SUPPORT. The statements of the family 41_branch: the one move a branch makes, its target as an integer, and the fetch that
follows it (spec/41_branch.md R70 to R72). -/

namespace Sys2Proof.Machine

variable {st u : State} {w : Word} {s t : RegIdx} {imm : Int}

/-- R24 steps 4, 6, 7: a branch moves the pc, by `imm` or by 1, and changes nothing else. -/
theorem State.onlyMovesPc_branch (st : State) (p : Prop) [Decidable p] (imm : Int) :
    OnlyMovesPc st (st.branch (decide p) imm) (if p then st.pc + BitVec.ofInt 32 imm else st.pc + 1#32) := by
  refine ⟨st.readReg_branch _ imm, ?_, rfl, rfl, rfl, rfl⟩
  simp only [State.branch_pc, State.branchPc, State.nextPc, decide_eq_true_iff]

/-- R71, R72: from a fetched `beq` on equal or `bne` on different registers, the step takes the branch. -/
theorem step_taken_branch (hf : st.fetch = .ok w)
    (h : decode w = .ok (.beq s t imm) ∧ st.readReg s = st.readReg t ∨
      decode w = .ok (.bne s t imm) ∧ st.readReg s ≠ st.readReg t) :
    step st = .next (st.branch true imm) := by
  obtain ⟨hd, hc⟩ | ⟨hd, hc⟩ := h
  · rw [step_of_decode_ok hf hd, exec_beq, decide_eq_true hc]
  · rw [step_of_decode_ok hf hd, exec_bne, decide_eq_true hc]

/-- R44: the offset of a decoded branch is in the range of the signed immediate. -/
theorem branch_imm_range (h : decode w = .ok (.beq s t imm) ∨ decode w = .ok (.bne s t imm)) :
    -32768 ≤ imm ∧ imm ≤ 32767 := by
  obtain hd | hd := h
  all_goals exact (immInRange_iff imm).mp (decode_wf hd)

/-- R70, R15: the target of a taken branch in a loaded program is the exact integer sum. -/
theorem State.branch_true_pc_toInt (hwf : Memory.wf st.imem = true) (hf : st.fetch = .ok w)
    (himm : -32768 ≤ imm ∧ imm ≤ 32767) : (st.branch true imm).pc.toInt = st.pc.toInt + imm := by
  obtain ⟨hlo, hhi⟩ := State.pc_range_of_fetch_ok hwf hf
  obtain ⟨klo, khi⟩ := himm
  exact pc_add_toInt hlo hhi klo khi

/-- R31: where only registers and the pc have changed since a fetch, the fetch gives the word at the new pc. -/
theorem State.fetch_eq_ok_of_sameControl (hf : st.fetch = .ok w) (hctl : SameControl st u) {v : Word}
    (hv : Memory.word? st.imem u.pc.toInt = some v) : u.fetch = .ok v := by
  obtain ⟨hr, hn, -⟩ := State.fetch_ok_iff.mp hf
  obtain ⟨hr', hn', -, himem⟩ := hctl
  exact State.fetch_ok_iff.mpr ⟨hr'.trans hr, hn'.trans hn, himem ▸ hv⟩

/-- R126 (c), D16: or it finds the pc outside the program, below 0 as at or past the end. -/
theorem State.fetch_eq_fellOff_of_sameControl (hf : st.fetch = .ok w) (hctl : SameControl st u)
    (hv : Memory.word? st.imem u.pc.toInt = none) : u.fetch = .error .fellOff := by
  obtain ⟨hr, hn, -⟩ := State.fetch_ok_iff.mp hf
  obtain ⟨hr', hn', -, himem⟩ := hctl
  exact State.fetch_fellOff_iff.mpr
    ⟨hr'.trans hr, hn'.trans hn, (Memory.word?_eq_none_iff _ _).mp (himem ▸ hv)⟩

/-! ### The statements -/

/-- Settles O18: the step is the branch itself, its target is exact, and nothing the fetch looks at but the pc has changed. -/
theorem takenBranchGoesStraightToItsTarget : Obligations.TakenBranchGoesStraightToItsTarget := by
  intro st w s t imm hwf hf h
  have himm : -32768 ≤ imm ∧ imm ≤ 32767 := branch_imm_range (h.imp And.left And.left)
  have hpc : (st.branch true imm).pc.toInt = st.pc.toInt + imm := State.branch_true_pc_toInt hwf hf himm
  have hctl : SameControl st (st.branch true imm) := ⟨rfl, rfl, rfl, rfl⟩
  refine ⟨_, step_taken_branch hf h, hpc, ?_⟩
  rw [← hpc]
  cases hv : Memory.word? st.imem (st.branch true imm).pc.toInt with
  | some v => exact State.fetch_eq_ok_of_sameControl hf hctl hv
  | none => exact State.fetch_eq_fellOff_of_sameControl hf hctl hv

/-- Settles O16: the word's opcode selects `beq`, which branches on equality. -/
theorem beqMovesPcWhenEqual : Obligations.BeqMovesPcWhenEqual := by
  refine ⟨fun w h => ?_, fun s t imm st => ⟨_, exec_beq s t imm st, st.onlyMovesPc_branch _ imm⟩⟩
  have hop : opcodeField w = 0x04#6 := opcodeField_of_mask h (by decide)
  exact decode_of_readFrom ⟨hop, rfl, rfl, rfl⟩

/-- Settles O17: the word's opcode selects `bne`, which branches on difference. -/
theorem bneMovesPcWhenNotEqual : Obligations.BneMovesPcWhenNotEqual := by
  refine ⟨fun w h => ?_, fun s t imm st => ⟨_, exec_bne s t imm st, st.onlyMovesPc_branch _ imm⟩⟩
  have hop : opcodeField w = 0x05#6 := opcodeField_of_mask h (by decide)
  exact decode_of_readFrom ⟨hop, rfl, rfl, rfl⟩

end Sys2Proof.Machine
end

section
/-! SUPPORT. The statements of the family 42_immediate: the bits and the bound of the zero-extended constant
(spec/42_immediate.md R75 to R79). -/

namespace Sys2Proof.Machine

/-! ### The zero-extended constant (R44, R78, R79) -/

/-- R44: the operand of `andi` and `ori` has the raw immediate in bits 15 to 0 and zeros above. -/
theorem getLsbD_setWidth_raw (raw : BitVec 16) {k : Nat} (hk : k < 32) :
    (raw.setWidth 32).getLsbD k = (decide (k < 16) && raw.getLsbD k) := by
  rw [BitVec.getLsbD_setWidth, decide_eq_true hk, Bool.true_and]
  by_cases h : k < 16
  · simp [h]
  · simp [h, BitVec.getLsbD_of_ge raw k (Nat.le_of_not_lt h)]

/-- R78: an AND with the zero-extended constant is at most that constant, so it is never negative. -/
theorem and_setWidth_raw_range (a : Word) (raw : BitVec 16) :
    0 ≤ (a &&& raw.setWidth 32).toInt ∧ (a &&& raw.setWidth 32).toInt ≤ 65535 := by
  have hle : (a &&& raw.setWidth 32).toNat ≤ raw.toNat := by
    rw [BitVec.toNat_and, BitVec.toNat_setWidth_of_le (by decide)]
    exact Nat.and_le_right
  have hraw : raw.toNat < 65536 := raw.isLt
  rw [BitVec.toInt_eq_toNat_of_lt (by omega)]
  omega

/-! ### The statements -/

/-- Settles O19: the word's opcode selects `addi`, which retires with the narrowed sum. -/
theorem addiWritesWrappedSum : Obligations.AddiWritesWrappedSum := by
  refine ⟨fun w h => ?_, fun t s imm st => ⟨_, exec_addi s t imm st, st.writesReg_retire t _⟩⟩
  have hop : opcodeField w = 0x08#6 := opcodeField_of_mask h (by decide)
  exact decode_of_readFrom ⟨hop, rfl, rfl, rfl⟩

/-- Settles O20: the word's opcode selects `slti`, which retires with the word of the comparison. -/
theorem sltiWritesSignedComparison : Obligations.SltiWritesSignedComparison := by
  refine ⟨fun w h => ?_, fun t s imm st => ⟨_, exec_slti s t imm st, ?_⟩⟩
  · have hop : opcodeField w = 0x0A#6 := opcodeField_of_mask h (by decide)
    exact decode_of_readFrom ⟨hop, rfl, rfl, rfl⟩
  · rw [← boolWord_decide]
    exact st.writesReg_retire t _

/-- Settles O21: the word's opcode selects `andi`, whose constant clears bits 31 to 16 of the result. -/
theorem andiUsesZeroExtendedConstant : Obligations.AndiUsesZeroExtendedConstant := by
  refine ⟨fun w h => ?_, fun t s raw st =>
    ⟨_, _, exec_andi s t raw st, st.writesReg_retire t _, fun k hk => ?_, and_setWidth_raw_range _ raw⟩⟩
  · have hop : opcodeField w = 0x0C#6 := opcodeField_of_mask h (by decide)
    exact decode_of_readFrom ⟨hop, rfl, rfl, rfl⟩
  · rw [BitVec.getLsbD_and, getLsbD_setWidth_raw raw hk, Bool.and_left_comm, Bool.and_assoc]

/-- Settles O22: the word's opcode selects `ori`, whose constant leaves bits 31 to 16 of the source as they are. -/
theorem oriUsesZeroExtendedConstant : Obligations.OriUsesZeroExtendedConstant := by
  refine ⟨fun w h => ?_, fun t s raw st =>
    ⟨_, _, exec_ori s t raw st, st.writesReg_retire t _, fun k hk => ?_⟩⟩
  · have hop : opcodeField w = 0x0D#6 := opcodeField_of_mask h (by decide)
    exact decode_of_readFrom ⟨hop, rfl, rfl, rfl⟩
  · rw [BitVec.getLsbD_or, getLsbD_setWidth_raw raw hk]

end Sys2Proof.Machine
end

section
/-! SUPPORT. The statements of the family 43_load_upper: the value of a shifted immediate, beside its sign-extended reading and
under an OR with a low half (spec/43_load_upper.md R85). -/

namespace Sys2Proof.Machine

theorem exec_lui (t : RegIdx) (raw : BitVec 16) (st : State) :
    exec (.lui t raw) st = .next (st.retire t (toI32 ((raw.toNat : Int) * 65536))) := rfl

/-- R11: a destination other than register 0 reads the written value back. -/
theorem State.readReg_retire_dest (st : State) {d : RegIdx} (v : Word) (hd : d ≠ 0) : (st.retire d v).readReg d = v := by
  rw [State.readReg_retire, if_pos ⟨rfl, hd⟩]

/-! ### The shifted immediate (R44, R85) -/

/-- R85: the raw and the sign-extended immediate differ by a multiple of 65536, so by a multiple of `2^32` after the shift. -/
theorem toI32_raw_shifted_eq_sext16_shifted (raw : BitVec 16) :
    toI32 ((raw.toNat : Int) * 65536) = toI32 (sext16 raw * 65536) := by
  rw [sext16_eq]
  split
  · have hwrap : BitVec.ofInt 32 (-(65536 * 65536)) = 0#32 := by decide
    rw [Int.sub_mul, Int.sub_eq_add_neg, toI32, toI32, BitVec.ofInt_add, hwrap, BitVec.add_zero]
  · rfl

/-- R85, R79: the shifted immediate has zeros in its low half, so an OR with the low half adds it. -/
theorem toI32_shifted_or_setWidth (hi lo : BitVec 16) :
    toI32 ((hi.toNat : Int) * 65536) ||| lo.setWidth 32 = toI32 ((hi.toNat : Int) * 65536 + lo.toNat) := by
  have hhi : hi.toNat < 65536 := hi.isLt
  have hlo : lo.toNat < 2 ^ 16 := lo.isLt
  have hor : hi.toNat * 65536 ||| lo.toNat = hi.toNat * 65536 + lo.toNat := by
    have h := Nat.shiftLeft_add_eq_or_of_lt hlo hi.toNat
    rw [Nat.shiftLeft_eq] at h
    exact h.symm
  apply BitVec.eq_of_toNat_eq
  rw [BitVec.toNat_or, BitVec.toNat_setWidth_of_le (by decide), toI32, toI32, BitVec.toNat_ofInt, BitVec.toNat_ofInt]
  norm_cast
  rw [Nat.mod_eq_of_lt (by omega), Nat.mod_eq_of_lt (by omega), hor]

/-! ### The statements -/

/-- Settles O24: `ori` reads the shifted half that `lui` left in the same register, and adds the low half to it. -/
theorem luiThenOriBuildsAnyConstant : Obligations.LuiThenOriBuildsAnyConstant := by
  intro t hi lo st ht
  refine ⟨_, _, exec_lui t hi st, exec_ori t t lo _, ?_, fun r hr => ?_, ?_, rfl, rfl, rfl, rfl⟩
  · rw [State.readReg_retire_dest _ _ ht, State.readReg_retire_dest _ _ ht]
    exact toI32_shifted_or_setWidth hi lo
  · simp [State.readReg_retire, hr]
  · rw [State.retire_pc, State.retire_pc, BitVec.add_assoc]
    rfl

/-- Settles O23: the word's opcode selects `lui`, which retires with the shifted immediate. -/
theorem luiWritesShiftedConstant : Obligations.LuiWritesShiftedConstant := by
  refine ⟨fun w h => ?_, fun t raw st =>
    ⟨_, exec_lui t raw st, st.writesReg_retire t _, toI32_raw_shifted_eq_sext16_shifted raw⟩⟩
  have hop : opcodeField w = 0x0F#6 := opcodeField_of_mask h (by decide)
  exact decode_of_readFrom ⟨hop, rfl, rfl⟩

end Sys2Proof.Machine
end

section
/-! SUPPORT. The statements of the family 44_syscall: what a service emits and keeps, chosen by the word in `x[2]`, the stop after
a halting service, and the text of the events (spec/44_syscall.md R88 to R94). -/

namespace Sys2Proof.Machine

variable {s : State}

/-! ### The service, by the word in `x[2]` (R89) -/

/-- R89: the handler's test on the signed code is a test on the word. -/
theorem State.serviceCode_toInt_eq_iff (s : State) (c : Word) : s.serviceCode.toInt = c.toInt ↔ s.readReg 2 = c :=
  BitVec.toInt_inj

theorem exec_syscall_unknown_of_ne (h1 : s.readReg 2 ≠ 1#32) (h10 : s.readReg 2 ≠ 10#32) (h11 : s.readReg 2 ≠ 11#32) :
    exec .syscall s = .next (s.emit (.unknownSyscall (s.readReg 2))).halt :=
  exec_syscall_unknown (mt (s.serviceCode_toInt_eq_iff 1#32).mp h1) (mt (s.serviceCode_toInt_eq_iff 10#32).mp h10)
    (mt (s.serviceCode_toInt_eq_iff 11#32).mp h11)

/-- R16, R126 (a): no step follows a halt. -/
theorem step_halt (s : State) : step s.halt = .fault .halted :=
  step_fault_iff.mpr (State.fetch_halted_iff.mpr s.halt_runState)

/-! ### The text of the events (R94) -/

@[simp] theorem outputText_nil : outputText [] = "" := rfl

@[simp] theorem outputText_cons (e : Event) (es : List Event) : outputText (e :: es) = eventText e ++ outputText es := rfl

/-- R94, D11: the text of a trace grows by the texts of its events and nothing else. -/
theorem outputText_append (before after : List Event) :
    outputText (before ++ after) = outputText before ++ outputText after := by
  induction before with
  | nil => simp
  | cons e es ih => simp [ih, String.append_assoc]

/-- D11: an integer's text is its decimal numeral, with `-` before a negative one's magnitude. -/
theorem eventText_printInt (v : Word) :
    eventText (.printInt v) = if 0 ≤ v.toInt then toString v.toInt.natAbs else "-" ++ toString v.toInt.natAbs := by
  have hnum : eventText (.printInt v) = v.toInt.repr := rfl
  rw [hnum, Int.repr_eq_if]
  split
  · have habs : v.toInt.toNat = v.toInt.natAbs := by omega
    rw [habs]
    rfl
  · have habs : (-v.toInt).toNat = v.toInt.natAbs := by omega
    rw [habs]
    rfl

/-- R94, log 12: every byte is the code point of a character. -/
theorem toNat_ofNat_byte (c : Byte) : (Char.ofNat c.toNat).toNat = c.toNat := by
  have hc : c.toNat < 256 := c.isLt
  have hvalid : c.toNat.isValidChar := .inl (by omega)
  rw [Char.toNat_ofNat, if_pos hvalid]

/-! ### The statements -/

/-- Settles O26: service 1 emits the argument register and finishes at the next index. -/
theorem serviceOnePrintsTheInteger : Obligations.ServiceOnePrintsTheInteger := by
  intro s h
  have he := exec_syscall_printInt ((s.serviceCode_toInt_eq_iff 1#32).mpr h)
  exact ⟨_, he, rfl, rfl, State.readReg_finish _ _, rfl, rfl, rfl⟩

/-- Settles O27: service 10 does nothing but halt. -/
theorem serviceTenHalts : Obligations.ServiceTenHalts := by
  intro s h
  have he := exec_syscall_exit ((s.serviceCode_toInt_eq_iff 10#32).mpr h)
  exact ⟨_, he, rfl, rfl, s.readReg_halt, rfl, rfl⟩

/-- Settles O28: service 11 emits the low byte of the argument register and finishes at the next index. -/
theorem serviceElevenPrintsLowByte : Obligations.ServiceElevenPrintsLowByte := by
  intro s h
  have he := exec_syscall_printChar ((s.serviceCode_toInt_eq_iff 11#32).mpr h)
  exact ⟨_, _, he, rfl, BitVec.toNat_setWidth .., rfl, State.readReg_finish _ _, rfl, rfl, rfl⟩

/-- Settles O29: every other code emits itself and halts. -/
theorem unknownServiceReportsAndHalts : Obligations.UnknownServiceReportsAndHalts := by
  intro s h1 h10 h11
  exact ⟨_, exec_syscall_unknown_of_ne h1 h10 h11, rfl, rfl, State.readReg_halt _, rfl, rfl⟩

/-- Settles O30: a code that does not continue is 10 or unknown, and either way the service ends in a halt. -/
theorem haltingSyscallKeepsPcAndEndsTheRun : Obligations.HaltingSyscallKeepsPcAndEndsTheRun := by
  intro s h1 h11
  by_cases h10 : s.readReg 2 = 10#32
  · exact ⟨_, exec_syscall_exit ((s.serviceCode_toInt_eq_iff 10#32).mpr h10), rfl, rfl, step_halt s⟩
  · exact ⟨_, exec_syscall_unknown_of_ne h1 h10 h11, rfl, rfl, step_halt _⟩

/-- Settles O52: the text of a trace is a concatenation, and each event has its own text. -/
theorem outputTextAddsNothing : Obligations.OutputTextAddsNothing := by
  refine ⟨outputText_nil, fun e => ?_, outputText_append, fun v hv => ?_, fun v hv => ?_, fun c => ?_⟩
  · rw [outputText_cons, outputText_nil, String.append_empty]
  · rw [eventText_printInt, if_pos hv]
  · rw [eventText_printInt, if_neg (Int.not_le.mpr hv)]
  · exact ⟨_, rfl, toNat_ofNat_byte c⟩

end Sys2Proof.Machine
end

section
/-! SUPPORT. The statements of the family 60_exceptions: an instruction records no fault, an undecodable word records the one
there is, a run of decodable words meets none, and what the loader and the listing pass report (spec/60_exceptions.md R101 to
R112). -/

namespace Sys2Proof.Machine

variable {i : Instr} {s t : State} {w : Word} {rest program : Memory} {k position : Nat}

/-! ### The fault record along a step (R101, R105) -/

/-- R30, R105: no meaning touches the fault record or the program store. -/
theorem exec_keeps_fault_and_imem (h : exec i s = .next t) : t.fault = s.fault ∧ t.imem = s.imem := by
  obtain ⟨d, v, he⟩ | ⟨c, imm, -, he⟩ | ⟨rfl, -⟩ := exec_cases i s
  · cases he.symm.trans h
    exact ⟨s.retire_fault d v, s.retire_imem d v⟩
  · cases he.symm.trans h
    exact ⟨s.branch_fault c imm, s.branch_imem c imm⟩
  · obtain ⟨-, he⟩ | ⟨-, he⟩ | ⟨-, he⟩ | ⟨-, -, -, he⟩ := execSyscall_cases s
    all_goals
      cases he.symm.trans h
      exact ⟨rfl, rfl⟩

/-- R101: a step of a program whose words all decode records no fault. -/
theorem step_fault_eq_of_allDecodable (hall : Memory.AllDecodable s.imem) (h : step s = .next t) : t.fault = s.fault := by
  obtain ⟨f, -, hs⟩ | ⟨w, e, hf, hd, -⟩ | ⟨w, i, -, -, hs⟩ := step_cases s
  · cases hs.symm.trans h
  · obtain ⟨-, -, hw⟩ := State.fetch_ok_iff.mp hf
    have hgood : decodable w = true := hall w (Memory.mem_of_word? hw)
    exact absurd hgood (by simp [decodable_of_error hd])
  · exact (exec_keeps_fault_and_imem (hs.symm.trans h)).1

/-- R108, R126 (b): no step follows a decode failure. -/
theorem step_raiseDecodeFailure (hrun : s.runState = .running) (w : Word) :
    step (s.raiseDecodeFailure w) = .fault .decodeFailed :=
  step_fault_iff.mpr (State.fetch_decodeFailed_iff.mpr ⟨hrun, by simp⟩)

/-! ### Runs under fuel (R126, R127, R133) -/

/-- The state a run under fuel stands in at its end, or when its fuel is used up. -/
def RunOutcome.state : RunOutcome → State
  | .ended _ s => s
  | .outOfFuel s => s

@[simp] theorem RunOutcome.state_ended (c : EndCause) (s : State) : (RunOutcome.ended c s).state = s := rfl

@[simp] theorem RunOutcome.state_outOfFuel (s : State) : (RunOutcome.outOfFuel s).state = s := rfl

/-- What every step keeps, any run under fuel keeps. -/
theorem runFrom_keeps {P : State → Prop} (hstep : ∀ a b, step a = .next b → P a → P b) (fuel : Nat) (hs : P s) :
    P (runFrom fuel s).state := by
  have hafter (a : State) (ha : P a) : P a.after := by
    unfold State.after
    split
    next b hb => exact hstep a b hb ha
    all_goals exact ha
  induction fuel generalizing s with
  | zero =>
    rw [runFrom]
    split <;> exact hs
  | succ fuel ih =>
    rw [runFrom]
    split
    · exact hs
    · exact ih (hafter s hs)

/-- R127: the cause a run ends with is the one read off its last state. -/
theorem endCause_of_runFrom_eq_ended {fuel : Nat} {c : EndCause} (h : runFrom fuel s = .ended c t) :
    t.endCause = some c := by
  induction fuel generalizing s with
  | zero =>
    rw [runFrom] at h
    split at h
    next hc => cases h; exact hc
    next => cases h
  | succ fuel ih =>
    rw [runFrom] at h
    split at h
    next hc => cases h; exact hc
    next => exact ih h

/-- R127: the cause `DecodeFailure` is read off the fault record. -/
theorem State.fault_of_endCause (h : s.endCause = some (.decodeFailure position w)) :
    s.fault = some (.decodeFailure position w) := by
  unfold State.endCause at h
  split at h
  next => split at h <;> cases h
  next hf => cases h; exact hf
  next => split at h <;> cases h

/-- R112: in a program whose words all decode, a state without a fault is followed by no other. -/
theorem runFrom_fault_eq_none (hall : Memory.AllDecodable s.imem) (hnone : s.fault = none) (fuel : Nat) :
    (runFrom fuel s).state.fault = none := by
  have hkept : Memory.AllDecodable (runFrom fuel s).state.imem ∧ (runFrom fuel s).state.fault = none :=
    runFrom_keeps (P := fun u => Memory.AllDecodable u.imem ∧ u.fault = none)
      (fun a b hab ⟨ha, hn⟩ => ⟨step_imem_eq hab ▸ ha, (step_fault_eq_of_allDecodable ha hab).trans hn⟩) fuel ⟨hall, hnone⟩
  exact hkept.2

/-! ### The listing pass (R58, R112) -/

theorem Memory.allDecodable_cons :
    Memory.AllDecodable (w :: rest) ↔ decodable w = true ∧ Memory.AllDecodable rest := List.forall_mem_cons

/-- The pass goes on past a word that decodes. -/
theorem listingFrom_cons_of_decodable (h : decodable w = true) (k : Nat) (rest : Memory) :
    (listingFrom k (w :: rest)).2 = (listingFrom (k + 1) rest).2 := by
  cases hd : decode w with
  | error e => simp [decodable_of_error hd] at h
  | ok i => simp [listingFrom, hd]

/-- The pass aborts at a word that does not decode, with its 1-based position. -/
theorem listingFrom_cons_of_not_decodable (h : decodable w = false) (k : Nat) (rest : Memory) :
    (listingFrom k (w :: rest)).2 = some (.decodeFailure (k + 1) w) := by
  cases hd : decode w with
  | error e => simp [listingFrom, hd]
  | ok i => simp [decodable, hd] at h

theorem listingFrom_eq_none_iff : (listingFrom k program).2 = none ↔ Memory.AllDecodable program := by
  induction program generalizing k with
  | nil => simp [listingFrom, Memory.AllDecodable]
  | cons w rest ih =>
    rw [Memory.allDecodable_cons]
    cases hw : decodable w with
    | false => simp [listingFrom_cons_of_not_decodable hw]
    | true => simp [listingFrom_cons_of_decodable hw, ih]

/-- A failure the pass reports splits the program at the first word that does not decode. -/
theorem split_of_listingFrom_failure (h : (listingFrom k program).2 = some (.decodeFailure position w)) :
    ∃ before after, program = before ++ w :: after ∧ position = k + before.length + 1 ∧
      decodable w = false ∧ Memory.AllDecodable before := by
  induction program generalizing k with
  | nil => cases h
  | cons v rest ih =>
    cases hv : decodable v with
    | false =>
      cases (listingFrom_cons_of_not_decodable hv k rest).symm.trans h
      exact ⟨[], rest, rfl, rfl, hv, List.forall_mem_nil _⟩
    | true =>
      obtain ⟨before, after, rfl, rfl, hw, hall⟩ := ih ((listingFrom_cons_of_decodable hv k rest).symm.trans h)
      refine ⟨v :: before, after, rfl, ?_, hw, Memory.allDecodable_cons.mpr ⟨hv, hall⟩⟩
      rw [List.length_cons]
      omega

/-! ### The statements -/

/-- Settles O33: every meaning answers a next state, and none touches the fault record or the store. -/
theorem noInstructionIsExceptional : Obligations.NoInstructionIsExceptional := by
  intro i s
  obtain ⟨t, ht⟩ := exec_next i s
  exact ⟨t, ht, exec_keeps_fault_and_imem ht⟩

/-- Settles O46: no state of the run records a fault, and `DecodeFailure` is a cause only where one is recorded. -/
theorem decodableProgramsNeverFault : Obligations.DecodableProgramsNeverFault := by
  intro fuel s hall hnone
  have hkept := runFrom_fault_eq_none hall hnone fuel
  refine ⟨fun c t h => ?_, fun t h => ?_⟩
  · have ht : t.fault = none := by simpa [h] using hkept
    refine ⟨ht, ?_⟩
    rintro p w rfl
    have hfault := State.fault_of_endCause (endCause_of_runFrom_eq_ended h)
    cases ht.symm.trans hfault
  · simpa [h] using hkept

/-- Settles O48, from the split of the program at the reported word. -/
theorem listingPassFindsTheFirstBadWord : Obligations.ListingPassFindsTheFirstBadWord := by
  refine fun program => ⟨listingFrom_eq_none_iff, fun p w h => ?_⟩
  obtain ⟨before, after, rfl, rfl, hw, hall⟩ := split_of_listingFrom_failure h
  have hindex : 0 + before.length + 1 - 1 = before.length := by omega
  rw [hindex, List.take_left]
  exact ⟨by omega, by simp, hw, hall⟩

/-- Settles O34: what the record says is what `State.FaultIsOf` says of the state after the step. -/
theorem undecodableWordTakesDecodeFailure : Obligations.UndecodableWordTakesDecodeFailure := by
  intro s w e hf hd
  have ho : StepOutcome s w (s.raiseDecodeFailure w) := .decodeFailure (decodable_of_error hd)
  obtain ⟨hrun, -, hpos, hlo, hhi, -⟩ := ho.faultIsOf hf (s.raiseDecodeFailure_fault w)
  exact ⟨_, s.position, step_of_decode_error hf hd, rfl, hpos, hlo, hhi, rfl, rfl, hrun, rfl, rfl,
    step_raiseDecodeFailure hrun w⟩

/-- Settles O47: a program that is too long is no accepted one, and `LoadOverflow` is the only load error. -/
theorem bootAcceptsUpToCapacity : Obligations.BootAcceptsUpToCapacity := by
  refine fun program => ⟨fun h => ⟨_, boot_eq_ok_iff.mpr ⟨h, rfl⟩, rfl, rfl⟩, fun h => ?_⟩
  cases hb : boot program with
  | error e =>
    cases e
    rfl
  | ok s =>
    obtain ⟨hlen, -⟩ := boot_eq_ok_iff.mp hb
    omega

end Sys2Proof.Machine
end

section
/-! SUPPORT. The statements of the family 70_reset_and_hazards: the end cause beside the fetch, the listing of the nonzero
registers, the branch to itself, and the load of one instruction (spec/70_reset_and_hazards.md R126 to R133). -/

namespace Sys2Proof.Machine

variable {n : Nat} {s t : State} {w : Word} {rs rt : RegIdx}

/-! ### The end cause (R126, R127) -/

/-- R24: there is a next state exactly when the fetch answers a word. -/
theorem step_next_iff : (∃ t, step s = .next t) ↔ ∃ w, s.fetch = .ok w := by
  constructor
  · rintro ⟨t, ht⟩
    obtain ⟨w, hf, -⟩ := step_outcome ht
    exact ⟨w, hf⟩
  · rintro ⟨w, hf⟩
    exact step_next_of_fetch_ok hf

/-- Everything the end cause can be, beside what the fetch answers. R126, R127. -/
theorem State.endCause_cases (s : State) :
    (s.runState = .halted ∧ s.fetch = .error .halted ∧
      s.endCause = some (if s.serviceCode.toInt = 10 then .exit else .unknownSyscall s.serviceCode)) ∨
    (∃ p w, s.fault = some (.decodeFailure p w) ∧ s.fetch = .error .decodeFailed ∧
      s.endCause = some (.decodeFailure p w)) ∨
    (s.fetch = .error .fellOff ∧ s.endCause = some .fellOff) ∨
    ∃ w, s.fetch = .ok w ∧ s.endCause = none := by
  obtain ⟨hr, hs⟩ | ⟨hr, ⟨⟨p, w⟩, hf⟩, hs⟩ | ⟨hr, hf, hw, hs⟩ | ⟨hr, hf, w, hw, hs⟩ := s.fetch_cases
  · exact .inl ⟨hr, hs, by simp [State.endCause, hr]⟩
  · exact .inr (.inl ⟨p, w, hf, hs, by simp [State.endCause, hr, hf]⟩)
  · exact .inr (.inr (.inl ⟨hs, by simp [State.endCause, hr, hf, hw]⟩))
  · exact .inr (.inr (.inr ⟨w, hs, by simp [State.endCause, hr, hf, hw]⟩))

theorem State.endCause_eq_none_iff : s.endCause = none ↔ ∃ w, s.fetch = .ok w := by
  obtain ⟨-, hs, hc⟩ | ⟨p, w, -, hs, hc⟩ | ⟨hs, hc⟩ | ⟨w, hs, hc⟩ := s.endCause_cases
  all_goals simp [hs, hc]

/-- R127, R91: the cause `Exit`. -/
theorem State.endCause_eq_exit_iff : s.endCause = some .exit ↔ s.runState = .halted ∧ s.serviceCode.toInt = 10 := by
  obtain ⟨hr, -, hc⟩ | ⟨p, w, -, hs, hc⟩ | ⟨hs, hc⟩ | ⟨w, hs, hc⟩ := s.endCause_cases
  · by_cases h10 : s.serviceCode.toInt = 10 <;> simp [hr, hc, h10]
  all_goals simp [hc, ← State.fetch_halted_iff, hs]

/-- R127, R93: the cause `UnknownSyscall`. -/
theorem State.endCause_eq_unknownSyscall_iff {c : Word} :
    s.endCause = some (.unknownSyscall c) ↔ s.runState = .halted ∧ s.serviceCode.toInt ≠ 10 ∧ c = s.serviceCode := by
  obtain ⟨hr, -, hc⟩ | ⟨p, w, -, hs, hc⟩ | ⟨hs, hc⟩ | ⟨w, hs, hc⟩ := s.endCause_cases
  · by_cases h10 : s.serviceCode.toInt = 10 <;> simp [hr, hc, h10, eq_comm]
  all_goals simp [hc, ← State.fetch_halted_iff, hs]

/-- R126 (c): the cause `FellOff`. -/
theorem State.endCause_eq_fellOff_iff : s.endCause = some .fellOff ↔ s.fetch = .error .fellOff := by
  obtain ⟨-, hs, hc⟩ | ⟨p, w, -, hs, hc⟩ | ⟨hs, hc⟩ | ⟨w, hs, hc⟩ := s.endCause_cases
  · by_cases h10 : s.serviceCode.toInt = 10 <;> simp [hs, hc, h10]
  all_goals simp [hs, hc]

/-! ### A run under fuel beside a run of steps (R133) -/

theorem State.after_of_step_next (h : step s = .next t) : s.after = t := by simp [State.after, h]

/-- R133: where `n` steps lead to a state that can still step, the fuel `n` is used up there. -/
theorem runFrom_eq_outOfFuel_of_run (h : Host.Core.run Sys2Proof.core n s = .next t) (ht : t.fetch = .ok w) :
    runFrom n s = .outOfFuel t := by
  induction n generalizing s with
  | zero =>
    cases h
    have hgo : t.endCause = none := State.endCause_eq_none_iff.mpr ⟨w, ht⟩
    simp [runFrom, hgo]
  | succ n ih =>
    obtain ⟨u, hu, hrun⟩ := run_succ_eq_next_iff.mp h
    have hgo : s.endCause = none := State.endCause_eq_none_iff.mpr (step_next_iff.mp ⟨u, hu⟩)
    simp [runFrom, hgo, State.after_of_step_next hu, ih hrun]

/-! ### The branch to itself (R70, R133) -/

/-- R70: a taken branch with `imm = 0` leaves the pc where it is. -/
theorem State.onlyMovesPc_branch_true_zero (s : State) : OnlyMovesPc s (s.branch true 0) s.pc := by
  simpa using s.onlyMovesPc_branch True 0

/-- R24 step 1: the next fetch is the same when not even the pc has moved. -/
theorem OnlyMovesPc.fetch_eq (h : OnlyMovesPc s t s.pc) : t.fetch = s.fetch := by
  obtain ⟨-, hpc, hr, hf, -, himem⟩ := h
  simp only [State.fetch, hpc, hr, hf, himem]

theorem OnlyMovesPc.trans {u : State} {p q : PcIndex} (h : OnlyMovesPc s t p) (h' : OnlyMovesPc t u q) :
    OnlyMovesPc s u q := by
  obtain ⟨hreg, -, hr, hf, ho, hm⟩ := h
  obtain ⟨hreg', hpc', hr', hf', ho', hm'⟩ := h'
  exact ⟨fun i => (hreg' i).trans (hreg i), hpc', hr'.trans hr, hf'.trans hf, ho'.trans ho, hm'.trans hm⟩

/-- R133: any number of steps leads from a taken branch with `imm = 0` back to it. -/
theorem run_taken_branch_zero (hf : s.fetch = .ok w)
    (h : decode w = .ok (.beq rs rt 0) ∧ s.readReg rs = s.readReg rt ∨
      decode w = .ok (.bne rs rt 0) ∧ s.readReg rs ≠ s.readReg rt) :
    ∃ t, Host.Core.run Sys2Proof.core n s = .next t ∧ OnlyMovesPc s t s.pc := by
  induction n generalizing s with
  | zero => exact ⟨s, rfl, fun _ => rfl, rfl, rfl, rfl, rfl, rfl⟩
  | succ n ih =>
    have hstep : step s = .next (s.branch true 0) := step_taken_branch hf h
    have hmove : OnlyMovesPc s (s.branch true 0) s.pc := s.onlyMovesPc_branch_true_zero
    obtain ⟨t, hrun, ht⟩ := ih (hmove.fetch_eq.trans hf) (by simpa only [State.readReg_branch] using h)
    have hpc : (s.branch true 0).pc = s.pc := hmove.2.1
    exact ⟨t, run_succ_eq_next_iff.mpr ⟨_, hstep, hrun⟩, hmove.trans (hpc ▸ ht)⟩

/-! ### The load of one instruction (R128) -/

variable {nbits k : Nat}

@[simp] theorem State.withFetchWord_regs (s : State) : (s.withFetchWord nbits k).regs = s.regs := rfl
@[simp] theorem State.withFetchWord_runState (s : State) : (s.withFetchWord nbits k).runState = .running := rfl
@[simp] theorem State.withFetchWord_fault (s : State) : (s.withFetchWord nbits k).fault = none := rfl
@[simp] theorem State.withFetchWord_out (s : State) : (s.withFetchWord nbits k).out = s.out := rfl

/-- The word goes to the index the pc then has. -/
theorem State.withFetchWord_imem (s : State) :
    (s.withFetchWord nbits k).imem =
      Memory.place s.imem (s.withFetchWord nbits k).pc.toNat (BitVec.ofNat 32 (k % 2 ^ nbits)) := rfl

/-- That index is one the store has room for. R30. -/
theorem State.withFetchWord_pc_range (s : State) :
    0 ≤ (s.withFetchWord nbits k).pc.toInt ∧ (s.withFetchWord nbits k).pc.toInt < Config.programMax := by
  simp only [State.withFetchWord]
  split
  next h => exact h
  next => decide

theorem State.withFetchWord_pc_toNat (s : State) :
    ((s.withFetchWord nbits k).pc.toNat : Int) = (s.withFetchWord nbits k).pc.toInt := by
  obtain ⟨hlo, -⟩ := s.withFetchWord_pc_range (nbits := nbits) (k := k)
  rw [BitVec.toInt_eq_toNat_cond] at hlo ⊢
  split at hlo <;> omega

/-- R24 step 1: the loaded word is the one fetched. -/
theorem State.fetch_withFetchWord (s : State) :
    (s.withFetchWord nbits k).fetch = .ok (BitVec.ofNat 32 (k % 2 ^ nbits)) := by
  refine State.fetch_ok_iff.mpr ⟨s.withFetchWord_runState, s.withFetchWord_fault, ?_⟩
  rw [← State.withFetchWord_pc_toNat, Memory.word?_nat, State.withFetchWord_imem, Memory.getElem?_place]

/-- R30: the load keeps the form of the store. -/
theorem State.wf_withFetchWord (h : Memory.wf s.imem = true) : Memory.wf (s.withFetchWord nbits k).imem = true := by
  have hpc := s.withFetchWord_pc_toNat (nbits := nbits) (k := k)
  obtain ⟨-, hhi⟩ := s.withFetchWord_pc_range (nbits := nbits) (k := k)
  rw [State.withFetchWord_imem]
  exact Memory.wf_place h (by omega) _

/-! ### The statements -/

/-- Settles O49: each cause is a kind of terminal state, and the invariant says what is recorded there. -/
theorem endCauseTellsHowTheRunEnded : Obligations.EndCauseTellsHowTheRunEnded := by
  refine fun s => ⟨State.endCause_eq_none_iff.trans step_next_iff.symm, fun _ h => State.endCause_eq_exit_iff.mp h,
    fun hinv c h => ?_, fun hinv p w h => hinv.faulted p w (State.fault_of_endCause h),
    fun _ h => State.fetch_fellOff_iff.mp (State.endCause_eq_fellOff_iff.mp h)⟩
  obtain ⟨hr, hne, rfl⟩ := State.endCause_eq_unknownSyscall_iff.mp h
  obtain ⟨-, -, h10 | ⟨h1, h10, h11, hout⟩⟩ := hinv.halted hr
  · exact absurd h10 hne
  · exact ⟨hr, s.serviceCode_eq, by simp [h1, h10, h11], hout⟩

/-- Settles O50: the listing filters and maps the register numbers, which ascend. -/
theorem finalListingIsTheNonzeroRegisters : Obligations.FinalListingIsTheNonzeroRegisters := by
  intro s
  have hmem (i : RegIdx) (v : Int) : (i, v) ∈ s.finalRegisters ↔ s.readReg i ≠ 0#32 ∧ v = (s.readReg i).toInt := by
    simp only [State.finalRegisters, List.mem_map, List.mem_filter, List.mem_finRange, bne_iff_ne, Prod.mk.injEq]
    constructor
    · rintro ⟨j, ⟨-, hne⟩, rfl, rfl⟩
      exact ⟨hne, rfl⟩
    · rintro ⟨hne, rfl⟩
      exact ⟨i, ⟨trivial, hne⟩, rfl, rfl⟩
  refine ⟨hmem, ?_, fun v h => ?_⟩
  · exact List.pairwise_map.mpr ((List.pairwise_lt_finRange 32).filter _)
  · obtain ⟨hne, -⟩ := (hmem 0 v).mp h
    exact hne s.readReg_zero

/-- Settles O51: every run of steps comes back to the branch, so no fuel is enough. -/
theorem branchToItselfNeverEnds : Obligations.BranchToItselfNeverEnds := by
  intro n s w rs rt hf h
  obtain ⟨t, hrun, hmove⟩ := run_taken_branch_zero (n := n) hf h
  have hfetch : t.fetch = s.fetch := hmove.fetch_eq
  have hfuel : runFrom n s = .outOfFuel t := runFrom_eq_outOfFuel_of_run hrun (hfetch.trans hf)
  obtain ⟨hreg, hpc, -⟩ := hmove
  exact ⟨⟨t, hrun, hpc, hfetch, hreg⟩, t, hfuel⟩

/-- Settles O53: the loaded word is fetched, so the step is its meaning. -/
theorem placedWordIsTheNextStep : Obligations.PlacedWordIsTheNextStep := by
  intro s w i hd
  have hfetch : (s.withFetchWord 32 w.toNat).fetch = .ok w := by
    rw [State.fetch_withFetchWord, Nat.mod_eq_of_lt w.isLt, BitVec.ofNat_toNat, BitVec.setWidth_eq]
  exact ⟨hfetch, step_of_decode_ok hfetch hd, s.withFetchWord_regs, s.withFetchWord_out, State.wf_withFetchWord⟩

end Sys2Proof.Machine
end
